-- ==== Sys2Proof/Word.lean ====
section
/-! DEFINITION. The word, port and text types of the block and its host (00_scope.md R6, R8). -/

namespace Sys2Proof

/-- An Encoded Word: `ILEN` = 32 bits (00_scope.md R6, 30_encoding.md R50). -/
abbrev Word := BitVec 32

/-- The value on one operand port: `OPERAND_WIDTH` = 32 bits, two's complement (10_state.md R25). -/
abbrev Port := BitVec 32

/-- One 8-bit byte, used only by a consumer that serialises a word (20_memory.md R41). -/
abbrev Byte := BitVec 8

/-- Host-side text: a sequence of characters (44_assembler_syntax.md). -/
abbrev Text := List Char

end Sys2Proof
end

