-- ==== Sys2Proof/Config.lean ====
section
/-! DEFINITION. The implementation parameters of 00_scope.md R6 and the record types of the block's
interface. The model has no free value: 30_encoding.md R79 leaves no output undefined. -/

namespace Sys2Proof

/-- `OVERFLOW_POLICY` (00_scope.md R6, decision D6): what a value that does not fit its field does. -/
inductive OverflowPolicy
  | reject
  | truncate
  deriving DecidableEq, Repr

/-- `IMM_SPLIT_MODE` (00_scope.md R6, decision D7): the right shift that splits S and SB immediates. -/
inductive ImmSplitMode
  | compat
  | twos
  deriving DecidableEq, Repr

/-- `WORD_BYTE_ORDER` (00_scope.md R6, 20_memory.md R41, decision D13): OPEN in the spec. It is no
part of the block; a consumer that stores a word as bytes passes it as an argument. -/
inductive ByteOrder
  | littleEndian
  | bigEndian
  deriving DecidableEq, Repr

/-- The format of a descriptor with the funct7 that only format R has: the invariant "`funct7` is
present if and only if `format == R`" (30_encoding.md R72) holds by construction. -/
inductive Layout
  | R (funct7 : BitVec 7)
  | I
  | S
  | SB
  deriving DecidableEq, Repr

/-- The Operand Parser shape a row needs (44_assembler_syntax.md R143). The code 3 of 30_encoding.md
R76 stands for "no row" and is no shape of a row. -/
inductive Shape
  | registerList
  | registerImmediate
  | registerOffset
  deriving DecidableEq, Repr

/-- An Instruction Descriptor with its parser shape (30_encoding.md R72). -/
structure Descriptor where
  layout : Layout
  opcode : BitVec 7
  funct3 : BitVec 3
  shape  : Shape
  deriving DecidableEq, Repr

/-- The seven mnemonics, in selector order (30_encoding.md R74, decision D3). -/
inductive Mnemonic
  | lh
  | sh
  | sub
  | or
  | andi
  | srl
  | beq
  deriving DecidableEq, Repr

/-- `DESCRIPTOR_TABLE` (00_scope.md R6, 10_state.md R21): one descriptor for each mnemonic. -/
structure DescriptorTable where
  lh   : Descriptor
  sh   : Descriptor
  sub  : Descriptor
  or   : Descriptor
  andi : Descriptor
  srl  : Descriptor
  beq  : Descriptor
  deriving DecidableEq, Repr

/-- The parameters fixed when the block is built (00_scope.md R6, 70_reset_and_hazards.md R181). -/
structure Build where
  overflow : OverflowPolicy
  split    : ImmSplitMode
  table    : DescriptorTable
  deriving DecidableEq, Repr

/-- The block's input ports (10_state.md R25). `MN_SEL_WIDTH` is 3. -/
structure Ports where
  mnSel : BitVec 3
  opA   : Port
  opB   : Port
  opC   : Port
  deriving DecidableEq, Repr

/-- The block's output ports (10_state.md R26). -/
structure Outputs where
  word  : Word
  err   : BitVec 2
  fmt   : BitVec 2
  shape : BitVec 2
  deriving DecidableEq, Repr

/-- The error taxonomy (60_exceptions.md R160). -/
inductive ErrorKind
  | unknownMnemonic
  | fieldOverflow
  | malformedOperand
  deriving DecidableEq, Repr

end Sys2Proof
end

