-- ==== Sys2Proof/Syntax.lean ====
section
/-! DEFINITION. The instructions: one constructor for each row of spec/opcode_table.json. An
instruction is one request to the block: its mnemonic and the values of the three operand ports, in
the tuple order of 30_encoding.md R78. -/

namespace Sys2Proof

/-- One request to the block. Each operand is any 32-bit port value, in or out of range
(10_state.md R27). -/
inductive Instr
  /-- `lh rd, imm(rs1)` (41_i_format.md R111). -/
  | lh (rd rs1 imm : Port)
  /-- `sh rs2, imm(rs1)` (42_s_format.md R121). -/
  | sh (rs1 rs2 imm : Port)
  /-- `sub rd, rs1, rs2` (40_r_format.md R101). -/
  | sub (rd rs1 rs2 : Port)
  /-- `or rd, rs1, rs2` (40_r_format.md R102). -/
  | or (rd rs1 rs2 : Port)
  /-- `andi rd, rs1, imm` (41_i_format.md R112). -/
  | andi (rd rs1 imm : Port)
  /-- `srl rd, rs1, rs2` (40_r_format.md R103). -/
  | srl (rd rs1 rs2 : Port)
  /-- `beq rs1, rs2, imm` (43_sb_format.md R131). -/
  | beq (rs1 rs2 imm : Port)
  deriving DecidableEq, Repr

end Sys2Proof
end

