-- ==== Sys2Proof/WellFormed.lean ====
section
/-! DEFINITION. Well-formed instructions (every operand in its range: 30_encoding.md R61, R62) and
well-formed descriptor tables (30_encoding.md R73). The block runs ill-formed instructions too: it
answers them as `OVERFLOW_POLICY` says. -/

namespace Sys2Proof

/-- A register index in [0, 31] (30_encoding.md R61). -/
def regInRange (r : Port) : Bool := decide (0 ≤ r.toInt ∧ r.toInt ≤ 31)

/-- The immediate range of formats I and S (30_encoding.md R62). -/
def imm12InRange (imm : Port) : Bool := decide (-2048 ≤ imm.toInt ∧ imm.toInt ≤ 2047)

/-- The immediate range of format SB (30_encoding.md R62). -/
def imm13InRange (imm : Port) : Bool := decide (-4096 ≤ imm.toInt ∧ imm.toInt ≤ 4095)

/-- Every operand is in the range 30_encoding.md R61 and R62 give it. -/
def Instr.wellFormed : Instr → Bool
  | .lh rd rs1 imm   => regInRange rd && regInRange rs1 && imm12InRange imm
  | .sh rs1 rs2 imm  => regInRange rs1 && regInRange rs2 && imm12InRange imm
  | .sub rd rs1 rs2  => regInRange rd && regInRange rs1 && regInRange rs2
  | .or rd rs1 rs2   => regInRange rd && regInRange rs1 && regInRange rs2
  | .andi rd rs1 imm => regInRange rd && regInRange rs1 && imm12InRange imm
  | .srl rd rs1 rs2  => regInRange rd && regInRange rs1 && regInRange rs2
  | .beq rs1 rs2 imm => regInRange rs1 && regInRange rs2 && imm13InRange imm

/-- The shapes each format may have (30_encoding.md R73). -/
def Layout.allowsShape : Layout → Shape → Bool
  | .R _, .registerList      => true
  | .R _, .registerImmediate => false
  | .R _, .registerOffset    => false
  | .I,   .registerList      => false
  | .I,   .registerImmediate => true
  | .I,   .registerOffset    => true
  | .S,   .registerList      => false
  | .S,   .registerImmediate => false
  | .S,   .registerOffset    => true
  | .SB,  .registerList      => false
  | .SB,  .registerImmediate => true
  | .SB,  .registerOffset    => false

/-- The funct7 field of a descriptor, absent unless the format is R (30_encoding.md R72). -/
def Layout.funct7 : Layout → Option (BitVec 7)
  | .R f7 => some f7
  | .I    => none
  | .S    => none
  | .SB   => none

/-- The rows of a table in selector order (30_encoding.md R74). -/
def DescriptorTable.rows (t : DescriptorTable) : List Descriptor :=
  [t.lh, t.sh, t.sub, t.or, t.andi, t.srl, t.beq]

/-- What selects a row among words: `(opcode, funct3, funct7)` (30_encoding.md R73). -/
def Descriptor.key (d : Descriptor) : BitVec 7 × BitVec 3 × Option (BitVec 7) :=
  (d.opcode, d.funct3, d.layout.funct7)

/-- A table is well-formed (30_encoding.md R73). Its opcode, funct3 and funct7 ranges and the presence
of funct7 exactly in format R hold by the types of `Descriptor`. -/
def DescriptorTable.wellFormed (t : DescriptorTable) : Bool :=
  t.rows.all (fun d => d.layout.allowsShape d.shape) && decide ((t.rows.map Descriptor.key).Nodup)

end Sys2Proof
end

