-- ==== Sys2Proof/Decode.lean ====
section
/-! DEFINITION. The decoder multiplexer and its descriptor table (30_encoding.md R74, R75), the
request decoder that the step uses, and, after them, the layouts of 30_encoding.md R51 to R54 written
bit by bit: an encoder of well-formed instructions and a decoder of words. The block itself decodes no
word (R81, 91_not_in_source.md N15): the word decoder is the model's own (log 7). -/

namespace Sys2Proof

/-! ### The decoder multiplexer -/

/-- The descriptor table of this hardware (30_encoding.md R74). Only the `sub` and `andi` numbers are
the source's; the others are the spec's general knowledge (decisions D4, D5; PRESUMED, log 10). -/
def descriptorTable : DescriptorTable where
  lh   := ⟨.I,             0b0000011#7, 0b001#3, .registerOffset⟩
  sh   := ⟨.S,             0b0100011#7, 0b001#3, .registerOffset⟩
  sub  := ⟨.R 0b0100000#7, 0b0110011#7, 0b000#3, .registerList⟩
  or   := ⟨.R 0b0000000#7, 0b0110011#7, 0b110#3, .registerList⟩
  andi := ⟨.I,             0b0010011#7, 0b111#3, .registerImmediate⟩
  srl  := ⟨.R 0b0000000#7, 0b0110011#7, 0b101#3, .registerList⟩
  beq  := ⟨.SB,            0b1100011#7, 0b000#3, .registerImmediate⟩

/-- The parameters of this hardware (00_scope.md R6): `reject`, `compat`, the table of R74. -/
def Build.hardware : Build := ⟨.reject, .compat, descriptorTable⟩

/-- The `mn_sel` code of a mnemonic (30_encoding.md R74, decision D3). -/
def Mnemonic.selector : Mnemonic → BitVec 3
  | .lh   => 0
  | .sh   => 1
  | .sub  => 2
  | .or   => 3
  | .andi => 4
  | .srl  => 5
  | .beq  => 6

/-- The multiplexer's selection (30_encoding.md R75): code 7 selects no row. -/
def Mnemonic.ofSelector (sel : BitVec 3) : Option Mnemonic :=
  match sel.toNat with
  | 0 => some .lh
  | 1 => some .sh
  | 2 => some .sub
  | 3 => some .or
  | 4 => some .andi
  | 5 => some .srl
  | 6 => some .beq
  | _ => none

/-- The row a mnemonic selects (30_encoding.md R75). -/
def DescriptorTable.row (t : DescriptorTable) : Mnemonic → Descriptor
  | .lh   => t.lh
  | .sh   => t.sh
  | .sub  => t.sub
  | .or   => t.or
  | .andi => t.andi
  | .srl  => t.srl
  | .beq  => t.beq

/-! ### Requests on the ports -/

/-- The mnemonic of an instruction. -/
def Instr.mnemonic : Instr → Mnemonic
  | .lh _ _ _   => .lh
  | .sh _ _ _   => .sh
  | .sub _ _ _  => .sub
  | .or _ _ _   => .or
  | .andi _ _ _ => .andi
  | .srl _ _ _  => .srl
  | .beq _ _ _  => .beq

/-- The Operand Tuple of an instruction, first to third element (30_encoding.md R78). -/
def Instr.operands : Instr → Port × Port × Port
  | .lh rd rs1 imm   => (rd, rs1, imm)
  | .sh rs1 rs2 imm  => (rs1, rs2, imm)
  | .sub rd rs1 rs2  => (rd, rs1, rs2)
  | .or rd rs1 rs2   => (rd, rs1, rs2)
  | .andi rd rs1 imm => (rd, rs1, imm)
  | .srl rd rs1 rs2  => (rd, rs1, rs2)
  | .beq rs1 rs2 imm => (rs1, rs2, imm)

/-- The instruction of a mnemonic on three operands in tuple order (30_encoding.md R78). -/
def Instr.of (m : Mnemonic) (a b c : Port) : Instr :=
  match m with
  | .lh   => .lh a b c
  | .sh   => .sh a b c
  | .sub  => .sub a b c
  | .or   => .or a b c
  | .andi => .andi a b c
  | .srl  => .srl a b c
  | .beq  => .beq a b c

/-- The port values that request an instruction (10_state.md R25, 30_encoding.md R78). -/
def encodePorts (i : Instr) : Ports :=
  ⟨i.mnemonic.selector, i.operands.1, i.operands.2.1, i.operands.2.2⟩

/-- The instruction that port values request, none for the unassigned selector 7 (30_encoding.md R75,
R81). This is the decoder of the step. -/
def decodePorts (p : Ports) : Option Instr :=
  (Mnemonic.ofSelector p.mnSel).map (fun m => Instr.of m p.opA p.opB p.opC)

/-! ### The word encoder, from the layouts of R51 to R54 -/

/-- The low five bits of a register operand (30_encoding.md R70). -/
def regBits (r : Port) : BitVec 5 := r.extractLsb' 0 5

/-- What the magnitude shift of `compat` mode shifts: the magnitude (30_encoding.md R57). -/
def splitSource (mode : ImmSplitMode) (imm : Port) : Port :=
  match mode with
  | .twos   => imm
  | .compat => if imm.msb then -imm else imm

/-- imm_hi of format S as bits (30_encoding.md R66). -/
def immHiBitsS (mode : ImmSplitMode) (imm : Port) : BitVec 7 :=
  (splitSource mode imm).extractLsb' 5 7

/-- imm_lo of format S as bits: `imm[4:0]` (30_encoding.md R65). -/
def immLoBitsS (imm : Port) : BitVec 5 := imm.extractLsb' 0 5

/-- imm_hi of format SB as bits: R69 in `twos` mode; in `compat` mode bit 6 is masked out (R68). -/
def immHiBitsSB (mode : ImmSplitMode) (imm : Port) : BitVec 7 :=
  match mode with
  | .twos   => imm.extractLsb' 12 1 ++ imm.extractLsb' 5 6
  | .compat => 0#1 ++ (splitSource .compat imm).extractLsb' 5 6

/-- imm_lo of format SB as bits: `{imm[4:1], imm[11]}` (30_encoding.md R67). -/
def immLoBitsSB (imm : Port) : BitVec 5 := imm.extractLsb' 1 4 ++ imm.extractLsb' 11 1

/-- The word of a row and three operands: the field tables of 30_encoding.md R51 to R54, most
significant field first. -/
def encodeFields (mode : ImmSplitMode) (d : Descriptor) (a b c : Port) : Word :=
  match d.layout with
  | .R f7 => f7 ++ regBits c ++ regBits b ++ d.funct3 ++ regBits a ++ d.opcode
  | .I    => c.extractLsb' 0 12 ++ regBits b ++ d.funct3 ++ regBits a ++ d.opcode
  | .S    => immHiBitsS mode c ++ regBits b ++ regBits a ++ d.funct3 ++ immLoBitsS c ++ d.opcode
  | .SB   => immHiBitsSB mode c ++ regBits b ++ regBits a ++ d.funct3 ++ immLoBitsSB c ++ d.opcode

/-- The word of an instruction under a table and a split mode. -/
def encodeWord (mode : ImmSplitMode) (t : DescriptorTable) (i : Instr) : Word :=
  encodeFields mode (t.row i.mnemonic) i.operands.1 i.operands.2.1 i.operands.2.2

/-! ### The word decoder (the model's own, log 7) -/

/-- Why the word decoder rejects a word. -/
inductive WordReject
  /-- The word matches no row of the table (30_encoding.md R80). -/
  | matchesNoRow
  /-- The word matches a row, and no in-range operands make the block build it in `compat` mode
  (42_s_format.md R122: imm_hi of an S word is at most 64, and 64 only with imm_lo 0;
  43_sb_format.md R134: bit 31 of an SB word is 0). -/
  | notProducedInCompat
  deriving DecidableEq, Repr

/-- A word matches a row: bits 6:0 and 14:12, and for format R also bits 31:25
(30_encoding.md R80, the match and mask of opcode_table.json). -/
def Descriptor.matchesWord (d : Descriptor) (w : Word) : Bool :=
  w.extractLsb' 0 7 == d.opcode && w.extractLsb' 12 3 == d.funct3 &&
    (match d.layout with
     | .R f7 => w.extractLsb' 25 7 == f7
     | .I    => true
     | .S    => true
     | .SB   => true)

/-- The mnemonics in selector order. -/
def Mnemonic.all : List Mnemonic := [.lh, .sh, .sub, .or, .andi, .srl, .beq]

/-- The first row a word matches, in selector order. -/
def DescriptorTable.rowOfWord (t : DescriptorTable) (w : Word) : Option Mnemonic :=
  Mnemonic.all.find? (fun m => (t.row m).matchesWord w)

/-- The S offset a word carries: `E` of 42_s_format.md R122 read back. In `compat` mode 0x800 is
-2048, every smaller `E` is read as the non-negative offset, and a larger `E` is never produced. -/
def decodeOffsetS (mode : ImmSplitMode) (w : Word) : Except WordReject Port :=
  let e : BitVec 12 := w.extractLsb' 25 7 ++ w.extractLsb' 7 5
  match mode with
  | .twos   => .ok (e.signExtend 32)
  | .compat => if e.toNat ≤ 2048 then .ok (e.signExtend 32) else .error .notProducedInCompat

/-- The SB offset a word carries: 43_sb_format.md R132. In `compat` mode bit 31 is never set, and a
word is read as its non-negative offset (R134). -/
def decodeOffsetSB (mode : ImmSplitMode) (w : Word) : Except WordReject Port :=
  let e : BitVec 13 :=
    w.extractLsb' 31 1 ++ w.extractLsb' 7 1 ++ w.extractLsb' 25 6 ++ w.extractLsb' 8 4 ++ 0#1
  match mode with
  | .twos   => .ok (e.signExtend 32)
  | .compat => if e.msb then .error .notProducedInCompat else .ok (e.signExtend 32)

/-- The register index in the five bits from `lo` up. -/
def wordReg (w : Word) (lo : Nat) : Port := (w.extractLsb' lo 5).setWidth 32

/-- The operands a word carries under a row, in tuple order. -/
def decodeOperands (mode : ImmSplitMode) (d : Descriptor) (w : Word) :
    Except WordReject (Port × Port × Port) :=
  match d.layout with
  | .R _ => .ok (wordReg w 7, wordReg w 15, wordReg w 20)
  | .I   => .ok (wordReg w 7, wordReg w 15, (w.extractLsb' 20 12).signExtend 32)
  | .S   => (decodeOffsetS mode w).map (fun imm => (wordReg w 15, wordReg w 20, imm))
  | .SB  => (decodeOffsetSB mode w).map (fun imm => (wordReg w 15, wordReg w 20, imm))

/-- The request whose word `w` is, rejecting by name. -/
def decodeWord (mode : ImmSplitMode) (t : DescriptorTable) (w : Word) : Except WordReject Instr :=
  match t.rowOfWord w with
  | none   => .error .matchesNoRow
  | some m => (decodeOperands mode (t.row m) w).map (fun o => Instr.of m o.1 o.2.1 o.2.2)

/-- The instruction the word decoder reads, in this hardware's mode and table, from a table word of
`nbits` bits. DESIGN CHOICE (log 23): the spec has one length, 32 bits (30_encoding.md R50, R82), and no
word decoder. The bits above `nbits` count as zero, so a shorter word is read zero-extended to 32 bits,
and a longer one is read where its bits from bit 32 up are zero, and rejected elsewhere. -/
def decodeTableWord (nbits w : Nat) : Option Instr :=
  let bits := w % 2 ^ nbits
  if bits < 2 ^ 32 then
    (decodeWord Build.hardware.split Build.hardware.table (BitVec.ofNat 32 bits)).toOption
  else none

end Sys2Proof
end

