-- ==== Sys2Proof/Machine/Flags.lean ====
section
/-! DEFINITION. The block has no flags (10_state.md R24): its status outputs are the codes on `err`,
`fmt` and `shape`, and raising an error is the one operation on them. -/

namespace Sys2Proof.Machine

/-- The code of an error on `err` (60_exceptions.md R160). -/
def errCode : ErrorKind → BitVec 2
  | .unknownMnemonic  => 1
  | .fieldOverflow    => 2
  | .malformedOperand => 3

/-- The `err` code of no error (60_exceptions.md R160). -/
def errNone : BitVec 2 := 0

/-- The `fmt` code of a format (30_encoding.md R76). -/
def fmtCode : Layout → BitVec 2
  | .R _ => 0
  | .I   => 1
  | .S   => 2
  | .SB  => 3

/-- The `shape` code of a parser shape (30_encoding.md R76). -/
def shapeCode : Shape → BitVec 2
  | .registerList      => 0
  | .registerImmediate => 1
  | .registerOffset    => 2

/-- The parser shape a `shape` code names; code 3 names none (30_encoding.md R76). -/
def shapeOfCode (code : BitVec 2) : Option Shape :=
  match code.toNat with
  | 0 => some .registerList
  | 1 => some .registerImmediate
  | 2 => some .registerOffset
  | _ => none

/-- Raising an error: `word` is driven to zero and the code is on `err`; nothing else is recorded
(60_exceptions.md R165, R166). There is no trap, no handler and no return (R166, R167). -/
def raiseError (e : ErrorKind) (fmt shape : BitVec 2) : Outputs := ⟨0, errCode e, fmt, shape⟩

/-- The outputs of the unassigned selector: UnknownMnemonic with `fmt` 0 and `shape` 3
(30_encoding.md R75). -/
def unknownOutputs : Outputs := raiseError .unknownMnemonic 0 3

end Sys2Proof.Machine
end

