-- ==== Sys2Proof/Machine/Values.lean ====
section
/-! DEFINITION. The integer notation of 00_scope.md R8. Every operand and intermediate value is a
mathematical integer; a field is a non-negative one. -/

namespace Sys2Proof.Machine

/-- `v mod 2^w`, in [0, 2^w) (00_scope.md R8). -/
def lowBits (v : Int) (w : Nat) : Nat := (v % ((2 ^ w : Nat) : Int)).toNat

/-- `floor(v / 2^n)`, rounding toward minus infinity (00_scope.md R8). -/
def floorShift (v : Int) (n : Nat) : Int := v / ((2 ^ n : Nat) : Int)

/-- `bit(v, i)` (00_scope.md R8). -/
def bitOf (v : Int) (i : Nat) : Nat := lowBits (floorShift v i) 1

/-- `v[hi:lo]` (00_scope.md R8). -/
def slice (v : Int) (hi lo : Nat) : Nat := lowBits (floorShift v lo) (hi - lo + 1)

/-- `band(v, m)` for a mask below 2^32: every mask of the block is (00_scope.md R8, 30_encoding.md
R60). -/
def band (v : Int) (m : Nat) : Nat := lowBits v 32 &&& m

/-- `sext_N(v)`: the integer whose `N`-bit two's-complement pattern is `v[N-1:0]` (00_scope.md R8). -/
def signExt (n : Nat) (v : Int) : Int :=
  if 2 * lowBits v n < 2 ^ n then (lowBits v n : Int) else (lowBits v n : Int) - ((2 ^ n : Nat) : Int)

/-- `{a:wa, b:wb, ...}`: concatenation, most significant first, of parts given as (value, width)
(00_scope.md R8). -/
def concatFields (parts : List (Nat × Nat)) : Nat :=
  parts.foldl (fun acc part => acc * 2 ^ part.2 + part.1) 0

/-- A port read as a signed integer: `sval(p) = sext_32(p)` (00_scope.md R8, 10_state.md R27). -/
def sval (p : Port) : Int := signExt 32 (p.toNat : Int)

end Sys2Proof.Machine
end

