-- ==== Sys2Proof/Machine/Operands.lean ====
section
/-! DEFINITION. The field encoder (30_encoding.md R55 to R71): range checks, `pack`, the right shifts
and the immediate fields. `none` is a raised FieldOverflow. -/

namespace Sys2Proof.Machine

/-- `fits(v, w)`: `-2^(w-1) <= v <= 2^w - 1` (30_encoding.md R55). -/
def fits (v : Int) (w : Nat) : Bool :=
  decide (-((2 ^ (w - 1) : Nat) : Int) ≤ v ∧ v ≤ ((2 ^ w : Nat) : Int) - 1)

/-- `pack(v, w)` (30_encoding.md R56). -/
def pack (policy : OverflowPolicy) (v : Int) (w : Nat) : Option Nat :=
  if policy = .reject ∧ fits v w = false then none else some (lowBits v w)

/-- `ars_compat(v, n)`: the source's shift, the magnitude unnegated (30_encoding.md R57). -/
def arsCompat (v : Int) (n : Nat) : Int :=
  if 0 ≤ v then floorShift v n else floorShift (-v) n

/-- `ars_twos(v, n)`: the true arithmetic right shift (30_encoding.md R58). -/
def arsTwos (v : Int) (n : Nat) : Int := floorShift v n

/-- `ARS(v, n)` by `IMM_SPLIT_MODE` (30_encoding.md R59). -/
def ars : ImmSplitMode → Int → Nat → Int
  | .compat => arsCompat
  | .twos   => arsTwos

/-- `CheckReg(r)` (30_encoding.md R61, R77). -/
def checkReg (policy : OverflowPolicy) (r : Int) : Option Unit :=
  if policy = .reject ∧ ¬(0 ≤ r ∧ r ≤ 31) then none else some ()

/-- `CheckImm(v, lo, hi)` (30_encoding.md R62, R77). -/
def checkImm (policy : OverflowPolicy) (v lo hi : Int) : Option Unit :=
  if policy = .reject ∧ ¬(lo ≤ v ∧ v ≤ hi) then none else some ()

/-- A register field (30_encoding.md R70). -/
def packReg (policy : OverflowPolicy) (r : Int) : Option Nat := pack policy r 5

/-- The I immediate field (30_encoding.md R64). -/
def packImmI (policy : OverflowPolicy) (imm : Int) : Option Nat := pack policy imm 12

/-- `S_lo(imm)` (30_encoding.md R65). -/
def immLoS (policy : OverflowPolicy) (imm : Int) : Option Nat :=
  pack policy (band imm 0b11111) 5

/-- `S_hi(imm)` (30_encoding.md R66). -/
def immHiS (policy : OverflowPolicy) (mode : ImmSplitMode) (imm : Int) : Option Nat :=
  pack policy (ars mode imm 5) 7

/-- The value packed by `SB_lo`: `band(imm, 0b11110) OR ars_compat(band(imm, 2^11), 11)`
(30_encoding.md R67). -/
def immLoValueSB (imm : Int) : Nat :=
  band imm 0b11110 ||| (arsCompat (band imm (2 ^ 11) : Nat) 11).toNat

/-- `SB_lo(imm)` (30_encoding.md R67). -/
def immLoSB (policy : OverflowPolicy) (imm : Int) : Option Nat := pack policy (immLoValueSB imm) 5

/-- The value packed by `SB_hi` in each mode: R68 keeps the source's 8-bit mask literal, R69 takes
bits 12 and 10:5. -/
def immHiValueSB : ImmSplitMode → Int → Nat
  | .compat, imm => band (arsCompat imm 5) 0b10111111
  | .twos,   imm => 64 * bitOf imm 12 + slice imm 10 5

/-- `SB_hi(imm)` (30_encoding.md R68, R69). -/
def immHiSB (policy : OverflowPolicy) (mode : ImmSplitMode) (imm : Int) : Option Nat :=
  pack policy (immHiValueSB mode imm) 7

end Sys2Proof.Machine
end

