-- ==== Sys2Proof/Machine/Assembler.lean ====
section
/-! DEFINITION. The format assembler and the block's whole function `Encode` (30_encoding.md R77). -/

namespace Sys2Proof.Machine

/-- A word from its fields (30_encoding.md R50). -/
def wordOfFields (parts : List (Nat × Nat)) : Word := BitVec.ofNat 32 (concatFields parts)

/-- Format R (40_r_format.md R100, 30_encoding.md R51, R77). -/
def assembleR (policy : OverflowPolicy) (d : Descriptor) (f7 : BitVec 7) (rd rs1 rs2 : Int) :
    Option Word := do
  checkReg policy rd
  checkReg policy rs1
  checkReg policy rs2
  let funct7Field ← pack policy f7.toNat 7
  let rs2Field ← packReg policy rs2
  let rs1Field ← packReg policy rs1
  let funct3Field ← pack policy d.funct3.toNat 3
  let rdField ← packReg policy rd
  let opcodeField ← pack policy d.opcode.toNat 7
  return wordOfFields [(funct7Field, 7), (rs2Field, 5), (rs1Field, 5), (funct3Field, 3),
    (rdField, 5), (opcodeField, 7)]

/-- Format I (41_i_format.md R110, 30_encoding.md R52, R77). -/
def assembleI (policy : OverflowPolicy) (d : Descriptor) (rd rs1 imm : Int) : Option Word := do
  checkReg policy rd
  checkReg policy rs1
  checkImm policy imm (-2048) 2047
  let immField ← packImmI policy imm
  let rs1Field ← packReg policy rs1
  let funct3Field ← pack policy d.funct3.toNat 3
  let rdField ← packReg policy rd
  let opcodeField ← pack policy d.opcode.toNat 7
  return wordOfFields [(immField, 12), (rs1Field, 5), (funct3Field, 3), (rdField, 5),
    (opcodeField, 7)]

/-- Format S (42_s_format.md R120, 30_encoding.md R53, R77). -/
def assembleS (policy : OverflowPolicy) (mode : ImmSplitMode) (d : Descriptor)
    (rs1 rs2 imm : Int) : Option Word := do
  checkReg policy rs1
  checkReg policy rs2
  checkImm policy imm (-2048) 2047
  let hiField ← immHiS policy mode imm
  let rs2Field ← packReg policy rs2
  let rs1Field ← packReg policy rs1
  let funct3Field ← pack policy d.funct3.toNat 3
  let loField ← immLoS policy imm
  let opcodeField ← pack policy d.opcode.toNat 7
  return wordOfFields [(hiField, 7), (rs2Field, 5), (rs1Field, 5), (funct3Field, 3),
    (loField, 5), (opcodeField, 7)]

/-- Format SB (43_sb_format.md R130, 30_encoding.md R54, R77). -/
def assembleSB (policy : OverflowPolicy) (mode : ImmSplitMode) (d : Descriptor)
    (rs1 rs2 imm : Int) : Option Word := do
  checkReg policy rs1
  checkReg policy rs2
  checkImm policy imm (-4096) 4095
  let hiField ← immHiSB policy mode imm
  let rs2Field ← packReg policy rs2
  let rs1Field ← packReg policy rs1
  let funct3Field ← pack policy d.funct3.toNat 3
  let loField ← immLoSB policy imm
  let opcodeField ← pack policy d.opcode.toNat 7
  return wordOfFields [(hiField, 7), (rs2Field, 5), (rs1Field, 5), (funct3Field, 3),
    (loField, 5), (opcodeField, 7)]

/-- `Assemble(d, a, b, c)`: one arm per format, no default (30_encoding.md R77, 00_scope.md R9). -/
def assemble (build : Build) (d : Descriptor) (a b c : Int) : Option Word :=
  match d.layout with
  | .R f7 => assembleR build.overflow d f7 a b c
  | .I    => assembleI build.overflow d a b c
  | .S    => assembleS build.overflow build.split d a b c
  | .SB   => assembleSB build.overflow build.split d a b c

/-- The outputs for a selected descriptor: the assembled word, or FieldOverflow with `fmt` and `shape`
still showing the descriptor (30_encoding.md R77, 60_exceptions.md R165). -/
def descriptorOutputs (d : Descriptor) : Option Word → Outputs
  | none   => raiseError .fieldOverflow (fmtCode d.layout) (shapeCode d.shape)
  | some w => ⟨w, errNone, fmtCode d.layout, shapeCode d.shape⟩

/-- `Encode(mn_sel, op_a, op_b, op_c)`, the block's whole behaviour (10_state.md R28, 30_encoding.md
R77). -/
def encodeBlock (build : Build) (p : Ports) : Outputs :=
  match Mnemonic.ofSelector p.mnSel with
  | none   => unknownOutputs
  | some m =>
    let d := build.table.row m
    descriptorOutputs d (assemble build d (sval p.opA) (sval p.opB) (sval p.opC))

end Sys2Proof.Machine
end

