-- ==== Sys2Proof/Machine/State.lean ====
section
/-! DEFINITION. The state of the model as plain data, the reasons a step could stop, and the state
after reset. The block holds no architectural state (10_state.md R20): State holds the inputs present
on it, the outputs sampled for them, its build parameters, and the data of the host that drives it
(44_assembler_syntax.md). -/

namespace Sys2Proof.Machine

/-- The host's exit statuses (44_assembler_syntax.md R156). -/
inductive ExitStatus
  /-- Status 0: every line was encoded or skipped as empty. -/
  | ok
  /-- Status 1: at least one line failed. -/
  | lineFailed
  /-- Status 2: a fatal I/O failure. -/
  | ioFailed
  deriving DecidableEq, Repr

/-- Where the host stands in its run (44_assembler_syntax.md R153, R154). -/
inductive Phase
  /-- The input and output paths are not opened yet (70_reset_and_hazards.md R182). -/
  | closed
  /-- The lines not read yet, first line first. -/
  | reading (unread : List Text)
  /-- The run is over. -/
  | ended (status : ExitStatus)
  deriving DecidableEq, Repr

/-- The host's command line: one input path and an optional output path (44_assembler_syntax.md
R154). -/
structure CommandLine where
  inputPath  : Text
  outputPath : Option Text
  deriving DecidableEq, Repr

/-- The host's data (44_assembler_syntax.md R153 to R156). -/
structure HostState where
  /-- The command line (R154). -/
  command     : CommandLine
  /-- What opening the input path gives: its lines, or none where it cannot be opened (R154). -/
  input       : Option (List Text)
  /-- Whether the output path can be opened (R154). -/
  outputOpens : Bool
  /-- Where the run stands. -/
  phase       : Phase
  /-- The number of lines read. -/
  lineNo      : Nat
  /-- The output lines written, in order, without their line feeds (R152, R153). -/
  output      : List Text
  /-- The diagnostics written, in order: line number and error kind (R155). -/
  diagnostics : List (Nat × ErrorKind)
  deriving DecidableEq, Repr

/-- The state of the model. -/
structure State where
  /-- The parameters fixed at build time; no step changes them (70_reset_and_hazards.md R181). -/
  build     : Build
  /-- The inputs present on the block (10_state.md R25). -/
  ports     : Ports
  /-- The outputs sampled for the inputs present (10_state.md R26, 70_reset_and_hazards.md R184). -/
  outputs   : Outputs
  /-- Port presentations another driver has ready, oldest first: the model's own field (log 4). -/
  presented : List Ports
  /-- The host's data. -/
  host      : HostState
  deriving DecidableEq, Repr

/-- No constructor: no input of the block is stuck or fatal to it (30_encoding.md R79,
60_exceptions.md R168), and its errors are outputs, so a step ends in a next state (log 6, log 18).
Safe: a claim that every step goes on is R79's. -/
inductive Fault
  deriving DecidableEq, Repr

/-- Why a step has no meaning. -/
inductive Refusal
  /-- Raised by `exec` for an instruction with no meaning yet; no arm raises it in this model.
  Safe: it stops where the hardware goes on. -/
  | notModelled (mnemonic : String)
  deriving DecidableEq, Repr

/-- The inputs present at reset: the spec gives none, all zero (DESIGN CHOICE, log 2). -/
def resetPorts : Ports := ⟨0, 0, 0, 0⟩

/-- The host before its run: paths not opened, nothing read or written (70_reset_and_hazards.md R182,
95_test_vectors.md L3); the command line and the input file are DESIGN CHOICE (log 5). -/
def resetHost : HostState where
  command     := ⟨[], none⟩
  input       := some []
  outputOpens := true
  phase       := .closed
  lineNo      := 0
  output      := []
  diagnostics := []

/-- The state after reset (70_reset_and_hazards.md R180, R181): nothing to reset, and the outputs are
`Encode` of the inputs present. -/
def State.reset : State where
  build     := Build.hardware
  ports     := resetPorts
  outputs   := encodeBlock Build.hardware resetPorts
  presented := []
  host      := resetHost

end Sys2Proof.Machine
end

