-- ==== Sys2Proof/Machine/Ops.lean ====
section
/-! DEFINITION. The named operations on the state. The block has no memory and no registers
(10_state.md R20, 20_memory.md R40): its one operation is an evaluation. Taking an error is
`raiseError` (Flags.lean), inside `encodeBlock`; there is no return from it (60_exceptions.md R167). -/

namespace Sys2Proof.Machine

/-- One evaluation of the block: the inputs are presented and the outputs sampled for them together
(70_reset_and_hazards.md R184, 20_memory.md R43). -/
def State.drive (s : State) (p : Ports) : State :=
  { s with ports := p, outputs := encodeBlock s.build p }

/-- The evaluation of an instruction's request: the ports in tuple order (30_encoding.md R78). -/
def State.request (s : State) (m : Mnemonic) (a b c : Port) : State :=
  s.drive ⟨m.selector, a, b, c⟩

/-- The selector no row has, with the operands the host leaves at zero (60_exceptions.md R161; the
zeros are DESIGN CHOICE, log 8). -/
def unassignedPorts : Ports := ⟨7, 0, 0, 0⟩

/-- The inputs of the host's shape query `Encode(sel, 0, 0, 0)` (44_assembler_syntax.md R158). -/
def queryPorts (m : Mnemonic) : Ports := ⟨m.selector, 0, 0, 0⟩

/-- The host reads one line: it is counted, and the rest stays unread (44_assembler_syntax.md R153,
R158). -/
def State.takeLine (s : State) (rest : List Text) : State :=
  { s with host := { s.host with phase := .reading rest, lineNo := s.host.lineNo + 1 } }

/-- The host writes one output line (44_assembler_syntax.md R152, R153). -/
def State.writeLine (s : State) (line : Text) : State :=
  { s with host := { s.host with output := s.host.output ++ [line] } }

/-- The host writes one diagnostic for the line it has read last (44_assembler_syntax.md R155). -/
def State.diagnose (s : State) (e : ErrorKind) : State :=
  { s with host := { s.host with diagnostics := s.host.diagnostics ++ [(s.host.lineNo, e)] } }

/-- The host ends its run (44_assembler_syntax.md R156). -/
def State.endRun (s : State) (status : ExitStatus) : State :=
  { s with host := { s.host with phase := .ended status } }

/-- The exit status as a number (44_assembler_syntax.md R156). -/
def ExitStatus.code : ExitStatus → Nat
  | .ok         => 0
  | .lineFailed => 1
  | .ioFailed   => 2

/-- The status at the end of the input: 1 when at least one line failed (44_assembler_syntax.md R155,
R156). -/
def HostState.endStatus (h : HostState) : ExitStatus :=
  if h.diagnostics.isEmpty then .ok else .lineFailed

/-- The bytes of a word in the order a consumer picks: `WORD_BYTE_ORDER` is OPEN and an argument
(20_memory.md R41, log 13). The byte of the lowest address stands first. -/
def wordBytes (order : ByteOrder) (w : Word) : List Byte :=
  match order with
  | .littleEndian =>
    [w.extractLsb' 0 8, w.extractLsb' 8 8, w.extractLsb' 16 8, w.extractLsb' 24 8]
  | .bigEndian =>
    [w.extractLsb' 24 8, w.extractLsb' 16 8, w.extractLsb' 8 8, w.extractLsb' 0 8]

end Sys2Proof.Machine
end

