-- ==== Sys2Proof/Machine/IFormat.lean ====
section
/-! DEFINITION. The I-format family (41_i_format.md). -/

namespace Sys2Proof.Machine

/-- `lh rd, imm(rs1)` (41_i_format.md R111). -/
def execLh (rd rs1 imm : Port) (s : State) : Host.Outcome State Fault Refusal :=
  .next (s.request .lh rd rs1 imm)

/-- `andi rd, rs1, imm` (41_i_format.md R112). -/
def execAndi (rd rs1 imm : Port) (s : State) : Host.Outcome State Fault Refusal :=
  .next (s.request .andi rd rs1 imm)

end Sys2Proof.Machine
end

