-- ==== Sys2Proof/Machine/RFormat.lean ====
section
/-! DEFINITION. The R-format family (40_r_format.md): the meaning of each instruction is the block's
evaluation of its request. -/

namespace Sys2Proof.Machine

/-- `sub rd, rs1, rs2` (40_r_format.md R101). -/
def execSub (rd rs1 rs2 : Port) (s : State) : Host.Outcome State Fault Refusal :=
  .next (s.request .sub rd rs1 rs2)

/-- `or rd, rs1, rs2` (40_r_format.md R102). -/
def execOr (rd rs1 rs2 : Port) (s : State) : Host.Outcome State Fault Refusal :=
  .next (s.request .or rd rs1 rs2)

/-- `srl rd, rs1, rs2` (40_r_format.md R103). -/
def execSrl (rd rs1 rs2 : Port) (s : State) : Host.Outcome State Fault Refusal :=
  .next (s.request .srl rd rs1 rs2)

end Sys2Proof.Machine
end

