-- ==== Sys2Proof/Machine/SFormat.lean ====
section
/-! DEFINITION. The S-format family (42_s_format.md). -/

namespace Sys2Proof.Machine

/-- `sh rs2, imm(rs1)`, operands in tuple order (42_s_format.md R121). -/
def execSh (rs1 rs2 imm : Port) (s : State) : Host.Outcome State Fault Refusal :=
  .next (s.request .sh rs1 rs2 imm)

end Sys2Proof.Machine
end

