-- ==== Sys2Proof/Machine/SbFormat.lean ====
section
/-! DEFINITION. The SB-format family (43_sb_format.md). -/

namespace Sys2Proof.Machine

/-- `beq rs1, rs2, imm` (43_sb_format.md R131). -/
def execBeq (rs1 rs2 imm : Port) (s : State) : Host.Outcome State Fault Refusal :=
  .next (s.request .beq rs1 rs2 imm)

end Sys2Proof.Machine
end

