-- ==== Sys2Proof/Machine/Tokenizer.lean ====
section
/-! DEFINITION. The host's tokenizer and mnemonic lookup (44_assembler_syntax.md R141, R142). -/

namespace Sys2Proof.Machine

/-- Whitespace: space, tab, line feed, vertical tab, form feed, carriage return
(44_assembler_syntax.md R141). -/
def isSpace (c : Char) : Bool :=
  c == ' ' || c == '\t' || c == '\n' || c == '\x0b' || c == '\x0c' || c == '\r'

/-- A line without leading and trailing whitespace (44_assembler_syntax.md R141). -/
def strip (line : Text) : Text :=
  ((line.dropWhile isSpace).reverse.dropWhile isSpace).reverse

/-- The mnemonic and the operand string of a stripped line: the text up to the first whitespace, and
the rest with every whitespace character removed (44_assembler_syntax.md R141). -/
def splitLine (t : Text) : Text × Text :=
  (t.takeWhile (fun c => !isSpace c), (t.dropWhile (fun c => !isSpace c)).filter (fun c => !isSpace c))

/-- The tokens of a line, none where it is empty (44_assembler_syntax.md R141). -/
def tokenize (line : Text) : Option (Text × Text) :=
  match strip line with
  | []     => none
  | c :: t => some (splitLine (c :: t))

/-- The spelling of a mnemonic (30_encoding.md R74). -/
def spelling : Mnemonic → Text
  | .lh   => ['l', 'h']
  | .sh   => ['s', 'h']
  | .sub  => ['s', 'u', 'b']
  | .or   => ['o', 'r']
  | .andi => ['a', 'n', 'd', 'i']
  | .srl  => ['s', 'r', 'l']
  | .beq  => ['b', 'e', 'q']

/-- The mnemonic a text spells, compared case-sensitively; none stands for `mn_sel` = 7
(44_assembler_syntax.md R142). -/
def lookupMnemonic (t : Text) : Option Mnemonic := Mnemonic.all.find? (fun m => spelling m == t)

end Sys2Proof.Machine
end

