-- ==== Sys2Proof/Machine/Parser.lean ====
section
/-! DEFINITION. The host's Operand Parser (44_assembler_syntax.md R143 to R151). `none` is
MalformedOperand. -/

namespace Sys2Proof.Machine

/-- A text split on a delimiter: one token more than there are delimiters (44_assembler_syntax.md
R146). -/
def splitOnChar (d : Char) : Text → List Text
  | []      => [[]]
  | c :: cs =>
    if c = d then [] :: splitOnChar d cs
    else match splitOnChar d cs with
      | []      => [[c]]
      | t :: ts => (c :: t) :: ts

/-- A decimal digit `0`-`9` (44_assembler_syntax.md R144). -/
def isDecimalDigit (c : Char) : Bool := decide (48 ≤ c.toNat ∧ c.toNat ≤ 57)

/-- The number a digit string writes, most significant digit first. -/
def decimalValue (t : Text) : Nat := t.foldl (fun n c => 10 * n + (c.toNat - 48)) 0

/-- One or more decimal digits, read in base 10 (44_assembler_syntax.md R144, R145). -/
def parseDigits (t : Text) : Option Nat :=
  if t ≠ [] ∧ t.all isDecimalDigit = true then some (decimalValue t) else none

/-- A register token: its first character is dropped, whatever it is; no range is checked
(44_assembler_syntax.md R144, R150). -/
def parseRegister : Text → Option Int
  | []     => none
  | _ :: t => (parseDigits t).map (fun n : Nat => (n : Int))

/-- An immediate token: an optional sign and one or more decimal digits (44_assembler_syntax.md
R145). -/
def parseImmediate : Text → Option Int
  | '-' :: t => (parseDigits t).map (fun n : Nat => -(n : Int))
  | '+' :: t => (parseDigits t).map (fun n : Nat => (n : Int))
  | t        => (parseDigits t).map (fun n : Nat => (n : Int))

/-- The form `I(R)`: exactly one `(`, exactly one `)` after it, and `)` last (44_assembler_syntax.md
R148). -/
def parseOffset (t : Text) : Option (Int × Int) :=
  match splitOnChar '(' t with
  | [immText, rest] =>
    match splitOnChar ')' rest with
    | [regText, []] => do
      let imm ← parseImmediate immText
      let reg ← parseRegister regText
      return (imm, reg)
    | _ => none
  | _ => none

/-- The values of an operand string in its shape, in text order (44_assembler_syntax.md R146 to
R148). -/
def parseOperands (shape : Shape) (ops : Text) : Option (Int × Int × Int) :=
  match shape, splitOnChar ',' ops with
  | .registerList, [t1, t2, t3] => do
    let r1 ← parseRegister t1
    let r2 ← parseRegister t2
    let r3 ← parseRegister t3
    return (r1, r2, r3)
  | .registerImmediate, [t1, t2, t3] => do
    let r1 ← parseRegister t1
    let r2 ← parseRegister t2
    let imm ← parseImmediate t3
    return (r1, r2, imm)
  | .registerOffset, [t1, t2] => do
    let r1 ← parseRegister t1
    let (imm, reg) ← parseOffset t2
    return (r1, imm, reg)
  | _, _ => none

/-- The parsed values in the tuple order of 30_encoding.md R78 (44_assembler_syntax.md R151): the
values `(t1, I, R)` of `imm(reg)` become `(rs1, rs2, imm) = (R, t1, I)` in format S and
`(rd, rs1, imm) = (t1, R, I)` elsewhere; the other shapes are in tuple order already. -/
def tupleOrder (layout : Layout) (shape : Shape) (v : Int × Int × Int) : Int × Int × Int :=
  match shape, layout with
  | .registerOffset, .S   => (v.2.2, v.1, v.2.1)
  | .registerOffset, .R _ => (v.1, v.2.2, v.2.1)
  | .registerOffset, .I   => (v.1, v.2.2, v.2.1)
  | .registerOffset, .SB  => (v.1, v.2.2, v.2.1)
  | .registerList, _      => v
  | .registerImmediate, _ => v

/-- A value placed on a 32-bit port: under `reject` a value outside [-2^31, 2^31 - 1] is FieldOverflow
(none here); under `truncate` it is `v mod 2^32` read as two's complement (44_assembler_syntax.md R151,
decision D26). -/
def placePort (policy : OverflowPolicy) (v : Int) : Option Port :=
  if policy = .reject ∧ ¬(-2147483648 ≤ v ∧ v ≤ 2147483647) then none
  else some (BitVec.ofNat 32 (lowBits v 32))

/-- What the host makes of one line before it drives the block with the operands
(44_assembler_syntax.md R158). -/
inductive Translation
  /-- The line is empty (R141). -/
  | skip
  /-- The mnemonic is outside the table (R142). -/
  | unknownMnemonic
  /-- The operand text is not in its shape (R149). -/
  | malformed (m : Mnemonic)
  /-- A value cannot be placed on its port (R151). -/
  | overflow (m : Mnemonic)
  /-- The request the line makes. -/
  | request (i : Instr)
  deriving DecidableEq, Repr

/-- The three values on their ports (44_assembler_syntax.md R151). -/
def placeOperands (policy : OverflowPolicy) (m : Mnemonic) (v : Int × Int × Int) : Translation :=
  match placePort policy v.1, placePort policy v.2.1, placePort policy v.2.2 with
  | some a, some b, some c => .request (Instr.of m a b c)
  | _, _, _ => .overflow m

/-- The operand part of a line for a mnemonic in the table. The shape is what the block drives for
the selector, `Encode(sel, 0, 0, 0).shape` (44_assembler_syntax.md R142, R158). -/
def translateOperands (build : Build) (m : Mnemonic) (ops : Text) : Translation :=
  match shapeOfCode (encodeBlock build ⟨m.selector, 0, 0, 0⟩).shape with
  | none       => .malformed m
  | some shape =>
    match parseOperands shape ops with
    | none   => .malformed m
    | some v => placeOperands build.overflow m (tupleOrder (build.table.row m).layout shape v)

/-- The translation of one line: empty lines, then the mnemonic, then the operands, in this order
(44_assembler_syntax.md R158, 60_exceptions.md R164). -/
def translateLine (build : Build) (line : Text) : Translation :=
  match tokenize line with
  | none => .skip
  | some (mn, ops) =>
    match lookupMnemonic mn with
    | none   => .unknownMnemonic
    | some m => translateOperands build m ops

end Sys2Proof.Machine
end

