-- ==== Sys2Proof/Machine/HostText.lean ====
section
/-! DEFINITION. The host's output text (44_assembler_syntax.md R152) and the canonical source line of
an instruction in the forms of R143, the converse of the Operand Parser. -/

namespace Sys2Proof.Machine

/-- The 32 characters of a word, bit 31 first (44_assembler_syntax.md R152, 00_scope.md R7). -/
def bitsText (w : Word) : Text :=
  (List.range 32).map (fun k => if w.getLsbD (31 - k) then '1' else '0')

/-- The text written to the output sink: each line and a line feed (44_assembler_syntax.md R152). -/
def HostState.outputText (h : HostState) : Text := (h.output.map (fun l => l ++ ['\n'])).flatten

/-- The digits of a number below `10^fuel`, most significant first, without leading zeros. -/
def decimalDigits : Nat → Nat → Text
  | 0,        _ => []
  | fuel + 1, n => (if n < 10 then [] else decimalDigits fuel (n / 10)) ++ [Char.ofNat (48 + n % 10)]

/-- A register token for a non-negative index (44_assembler_syntax.md R144). -/
def registerText (r : Port) : Text := 'x' :: decimalDigits 10 (sval r).toNat

/-- An immediate token (44_assembler_syntax.md R145). -/
def immediateText (imm : Port) : Text :=
  if sval imm < 0 then '-' :: decimalDigits 10 (-sval imm).toNat else decimalDigits 10 (sval imm).toNat

/-- The operand text of an instruction (44_assembler_syntax.md R143, R151). -/
def operandText : Instr → Text
  | .lh rd rs1 imm   => registerText rd ++ [','] ++ immediateText imm ++ ['('] ++ registerText rs1 ++ [')']
  | .sh rs1 rs2 imm  => registerText rs2 ++ [','] ++ immediateText imm ++ ['('] ++ registerText rs1 ++ [')']
  | .sub rd rs1 rs2  => registerText rd ++ [','] ++ registerText rs1 ++ [','] ++ registerText rs2
  | .or rd rs1 rs2   => registerText rd ++ [','] ++ registerText rs1 ++ [','] ++ registerText rs2
  | .andi rd rs1 imm => registerText rd ++ [','] ++ registerText rs1 ++ [','] ++ immediateText imm
  | .srl rd rs1 rs2  => registerText rd ++ [','] ++ registerText rs1 ++ [','] ++ registerText rs2
  | .beq rs1 rs2 imm => registerText rs1 ++ [','] ++ registerText rs2 ++ [','] ++ immediateText imm

/-- The source line of an instruction. -/
def sourceLine (i : Instr) : Text := spelling i.mnemonic ++ [' '] ++ operandText i

end Sys2Proof.Machine
end

