-- ==== Sys2Proof/Machine/HostRun.lean ====
section
/-! DEFINITION. The host's line function and run (44_assembler_syntax.md R153 to R158), and the
presentation of port values by another driver. -/

namespace Sys2Proof.Machine

/-- The result of one line (44_assembler_syntax.md R158). -/
inductive LineResult
  | skip
  | out (text : Text)
  | diag (n : Nat) (e : ErrorKind)
  deriving DecidableEq, Repr

/-- `AssembleLine(line, n)`, as a function of the line and its number alone (44_assembler_syntax.md
R158). -/
def assembleLine (build : Build) (line : Text) (n : Nat) : LineResult :=
  match translateLine build line with
  | .skip            => .skip
  | .unknownMnemonic => .diag n .unknownMnemonic
  | .malformed _     => .diag n .malformedOperand
  | .overflow _      => .diag n .fieldOverflow
  | .request i       =>
    let o := encodeBlock build (encodePorts i)
    if o.err = errCode .fieldOverflow then .diag n .fieldOverflow else .out (bitsText o.word)

/-- The host reads `word` and `err` after an evaluation: a diagnostic for FieldOverflow, else the
output line (44_assembler_syntax.md R158). -/
def State.recordResult (s : State) : State :=
  if s.outputs.err = errCode .fieldOverflow then s.diagnose .fieldOverflow
  else s.writeLine (bitsText s.outputs.word)

/-- The host processes a line it has read: it drives the block as R158 says, and a request runs as its
instruction. A line that fails leaves the inputs of the last query on the ports (log 8). -/
def lineStep (line : Text) (s : State) : Host.Outcome State Fault Refusal :=
  match translateLine s.build line with
  | .skip            => .next s
  | .unknownMnemonic => .next ((s.drive unassignedPorts).diagnose .unknownMnemonic)
  | .malformed m     => .next ((s.drive (queryPorts m)).diagnose .malformedOperand)
  | .overflow m      => .next ((s.drive (queryPorts m)).diagnose .fieldOverflow)
  | .request i       =>
    match exec i s with
    | .next t    => .next t.recordResult
    | .fault r   => .fault r
    | .refused r => .refused r

/-- The paths the host must open can be opened: the input path, and the output path where one is given
(44_assembler_syntax.md R154). -/
def HostState.pathsOpen (h : HostState) : Bool :=
  h.input.isSome && (h.command.outputPath.isNone || h.outputOpens)

/-- The host opens its paths: the run starts, or ends with the fatal status (44_assembler_syntax.md
R154, R156). -/
def openPaths (s : State) : State :=
  if s.host.pathsOpen then
    { s with host := { s.host with phase := .reading (s.host.input.getD []) } }
  else s.endRun .ioFailed

/-- One step of the host (44_assembler_syntax.md R153): open, process one line, or end. After the run
the block is evaluated again on the inputs present (log 9). -/
def hostStep (s : State) : Host.Outcome State Fault Refusal :=
  match s.host.phase with
  | .closed                 => .next (openPaths s)
  | .reading []             => .next (s.endRun s.host.endStatus)
  | .reading (line :: rest) => lineStep line (s.takeLine rest)
  | .ended _                => .next (s.drive s.ports)

/-- One presentation by another driver: the decoded instruction runs; the unassigned selector, with
whatever operands, is UnknownMnemonic (30_encoding.md R75, R77). -/
def presentStep (p : Ports) (s : State) : Host.Outcome State Fault Refusal :=
  match decodePorts p with
  | some i => exec i s
  | none   => .next (s.drive p)

/-- The command line `input`, `input -o output` or `-o output input` (44_assembler_syntax.md R154).
DESIGN CHOICE (log 16): the spec gives no order and no other command line, and none is accepted; an
input path is never spelled `-o`, and the word after the flag is the output path whatever its spelling,
so that it may be `-o` itself. -/
def CommandLine.ofArgs : List Text → Option CommandLine
  | [input]         => if input = ['-', 'o'] then none else some ⟨input, none⟩
  | [one, two, three] =>
    if two = ['-', 'o'] ∧ one ≠ ['-', 'o'] then some ⟨one, some three⟩
    else if one = ['-', 'o'] ∧ three ≠ ['-', 'o'] then some ⟨three, some two⟩
    else none
  | _ => none

/-- A run placed from outside the machine: its command line, what opening the input path gives, and
whether the output path can be opened; nothing is read or written yet (44_assembler_syntax.md R154,
log 4). -/
def State.launch (s : State) (args : List Text) (input : Option (List Text)) (outputOpens : Bool) :
    Option State :=
  (CommandLine.ofArgs args).map (fun command =>
    { s with
      presented := []
      host := { command := command, input := input, outputOpens := outputOpens, phase := .closed,
                lineNo := 0, output := [], diagnostics := [] } })

end Sys2Proof.Machine
end

