-- ==== Sys2Proof/Machine/Step.lean ====
section
/-! DEFINITION. The step: the oldest port presentation waiting, else the host's next step (log 4). The
block fetches nothing (20_memory.md R47); a request reaches it on its ports. -/

namespace Sys2Proof.Machine

/-- One step. -/
def step (s : State) : Host.Outcome State Fault Refusal :=
  match s.presented with
  | p :: rest => presentStep p { s with presented := rest }
  | []        => hostStep s

/-- The request of a table word placed so that the next step runs it: its port values become the next
presentation. A word the word decoder rejects is placed as the unassigned selector (log 7). -/
def State.withFetchWord (s : State) (nbits w : Nat) : State :=
  match decodeTableWord nbits w with
  | some i => { s with presented := encodePorts i :: s.presented }
  | none   => { s with presented := unassignedPorts :: s.presented }

end Sys2Proof.Machine
end

