-- ==== Sys2Proof/Safety.lean ====
section
/-! DEFINITION. The terms the claims are stated in: which requests the block encodes, and what a sound
state of the model is. -/

namespace Sys2Proof.Machine

/-- The offset that overflows in `compat` mode although it is in range: `beq` with -4096
(30_encoding.md R68). -/
def isCompatMinimum : Instr → Bool
  | .lh _ _ _   => false
  | .sh _ _ _   => false
  | .sub _ _ _  => false
  | .or _ _ _   => false
  | .andi _ _ _ => false
  | .srl _ _ _  => false
  | .beq _ _ c  => decide (c.toInt = -4096)

/-- The block encodes a request without FieldOverflow (60_exceptions.md R162). -/
def accepted (b : Build) (i : Instr) : Prop :=
  b.overflow = .reject → i.wellFormed = true ∧ ¬(b.split = .compat ∧ isCompatMinimum i = true)

/-- A request that its word still shows whole: an even branch offset, and in `compat` mode no negative
split immediate but the S offset -2048 (42_s_format.md R122, 43_sb_format.md R133, R134). -/
def recoverable (mode : ImmSplitMode) : Instr → Prop
  | .lh _ _ _     => True
  | .sh _ _ imm   => mode = .compat → 0 ≤ imm.toInt ∨ imm.toInt = -2048
  | .sub _ _ _    => True
  | .or _ _ _     => True
  | .andi _ _ _   => True
  | .srl _ _ _    => True
  | .beq _ _ imm  => imm.toInt % 2 = 0 ∧ (mode = .compat → 0 ≤ imm.toInt)

/-- The register operands are not negative, so that text can write them (44_assembler_syntax.md
R144). -/
def writable : Instr → Prop
  | .lh rd rs1 _   => 0 ≤ rd.toInt ∧ 0 ≤ rs1.toInt
  | .sh rs1 rs2 _  => 0 ≤ rs1.toInt ∧ 0 ≤ rs2.toInt
  | .sub rd rs1 rs2 => 0 ≤ rd.toInt ∧ 0 ≤ rs1.toInt ∧ 0 ≤ rs2.toInt
  | .or rd rs1 rs2  => 0 ≤ rd.toInt ∧ 0 ≤ rs1.toInt ∧ 0 ≤ rs2.toInt
  | .andi rd rs1 _ => 0 ≤ rd.toInt ∧ 0 ≤ rs1.toInt
  | .srl rd rs1 rs2 => 0 ≤ rd.toInt ∧ 0 ≤ rs1.toInt ∧ 0 ≤ rs2.toInt
  | .beq rs1 rs2 _ => 0 ≤ rs1.toInt ∧ 0 ≤ rs2.toInt

/-- The values of a row's Operand Tuple, as integers, are in their ranges, and are not the SB offset that
`compat` mode cannot hold (30_encoding.md R61, R62, 60_exceptions.md R162). -/
def valuesFit (mode : ImmSplitMode) (layout : Layout) (v : Int × Int × Int) : Prop :=
  (0 ≤ v.1 ∧ v.1 ≤ 31) ∧ (0 ≤ v.2.1 ∧ v.2.1 ≤ 31) ∧
    (match layout with
     | .R _ => 0 ≤ v.2.2 ∧ v.2.2 ≤ 31
     | .I   => -2048 ≤ v.2.2 ∧ v.2.2 ≤ 2047
     | .S   => -2048 ≤ v.2.2 ∧ v.2.2 ≤ 2047
     | .SB  => -4096 ≤ v.2.2 ∧ v.2.2 ≤ 4095 ∧ ¬(mode = .compat ∧ v.2.2 = -4096))

/-- One or more decimal digits (44_assembler_syntax.md R144, R145). -/
def isDigits (t : Text) : Prop := t ≠ [] ∧ ∀ c ∈ t, '0' ≤ c ∧ c ≤ '9'

/-- The form of a register token: any character, then digits (44_assembler_syntax.md R144). -/
def isRegisterToken (t : Text) : Prop := ∃ c ds, t = c :: ds ∧ isDigits ds

/-- The form of an immediate token: digits, with or without one sign (44_assembler_syntax.md R145). -/
def isImmediateToken (t : Text) : Prop :=
  isDigits t ∨ ∃ ds, isDigits ds ∧ (t = '-' :: ds ∨ t = '+' :: ds)

/-- The form `I(R)`: one `(`, one `)` after it, and `)` last (44_assembler_syntax.md R148). No other
parenthesis fits, because a token `I` has none, and `R` is written without any. -/
def isOffsetToken (t : Text) : Prop :=
  ∃ i r, t = i ++ '(' :: (r ++ [')']) ∧ '(' ∉ r ∧ ')' ∉ r ∧ isImmediateToken i ∧ isRegisterToken r

/-- The form of an operand string in a shape: its tokens, separated by commas
(44_assembler_syntax.md R146 to R148). -/
def isOperandText (shape : Shape) (ops : Text) : Prop :=
  match shape with
  | .registerList =>
    ∃ t u v, ops = t ++ ',' :: (u ++ ',' :: v) ∧ ',' ∉ t ++ u ++ v ∧
      isRegisterToken t ∧ isRegisterToken u ∧ isRegisterToken v
  | .registerImmediate =>
    ∃ t u v, ops = t ++ ',' :: (u ++ ',' :: v) ∧ ',' ∉ t ++ u ++ v ∧
      isRegisterToken t ∧ isRegisterToken u ∧ isImmediateToken v
  | .registerOffset =>
    ∃ t u, ops = t ++ ',' :: u ∧ ',' ∉ t ++ u ∧ isRegisterToken t ∧ isOffsetToken u

/-- The outputs held are the block's outputs for the inputs present (10_state.md R20, R28). -/
def State.coherent (s : State) : Prop := s.outputs = encodeBlock s.build s.ports

/-- The results of lines numbered from `first` on (44_assembler_syntax.md R153, R158). -/
def lineResults (b : Build) (first : Nat) (lines : List Text) : List LineResult :=
  (lines.zipIdx first).map (fun l => assembleLine b l.1 l.2)

/-- The output line of a result, if it has one. -/
def LineResult.outputLine : LineResult → Option Text
  | .skip     => none
  | .out t    => some t
  | .diag _ _ => none

/-- The diagnostic of a result, if it has one. -/
def LineResult.diagnostic : LineResult → Option (Nat × ErrorKind)
  | .skip     => none
  | .out _    => none
  | .diag n e => some (n, e)

/-- What the host has written is what `AssembleLine` gives for the lines in order: one output line for
each encoded line and one diagnostic for each failing line (44_assembler_syntax.md R153, R155). -/
def HostState.wrote (b : Build) (lines : List Text) (h : HostState) : Prop :=
  h.output = (lineResults b 1 lines).filterMap LineResult.outputLine ∧
    h.diagnostics = (lineResults b 1 lines).filterMap LineResult.diagnostic

/-- A run's record is sound: what is written belongs to the lines read, in order, and the phase and
the exit status agree with it (44_assembler_syntax.md R153 to R156). -/
def State.recordSound (s : State) : Prop :=
  match s.host.phase with
  | .closed         => s.host.lineNo = 0 ∧ s.host.wrote s.build []
  | .reading unread =>
    ∃ lines, s.host.input = some lines ∧ s.host.lineNo ≤ lines.length ∧
      unread = lines.drop s.host.lineNo ∧ s.host.wrote s.build (lines.take s.host.lineNo)
  | .ended .ioFailed   =>
    s.host.pathsOpen = false ∧ s.host.lineNo = 0 ∧ s.host.wrote s.build []
  | .ended .ok         =>
    ∃ lines, s.host.input = some lines ∧ s.host.lineNo = lines.length ∧
      s.host.wrote s.build lines ∧ s.host.diagnostics = []
  | .ended .lineFailed =>
    ∃ lines, s.host.input = some lines ∧ s.host.lineNo = lines.length ∧
      s.host.wrote s.build lines ∧ s.host.diagnostics ≠ []

end Sys2Proof.Machine
end

