-- ==== Sys2Proof/Certificates/Slice0/Obligations.lean ====
section
/-! DEFINITION. The statements for the provers. Where a statement names `descriptorTable`, five of its
rows are the spec's general knowledge (decisions D4, D5, log 10). -/

open Sys2Proof Sys2Proof.Machine

/-! ### A step runs the decoded instruction -/

/-- When the next presentation on the ports decodes to `i`, the step is `exec i` with that presentation
taken off the queue (the queue is the model's own, log 4). -/
def Obligations.StepRunsPresentedInstruction : Prop :=
  ∀ (s : State) (p : Ports) (rest : List Ports) (i : Instr),
    s.presented = p :: rest → decodePorts p = some i →
      step s = exec i { s with presented := rest }

/-- When nothing is presented and the next source line makes the request `i`, the step counts the line,
runs `exec i` and records what the block answered: with `err` 0 the word's output line, with `err` 2 a
FieldOverflow diagnostic of the line's number, and no other `err` is answered
(44_assembler_syntax.md R152, R155, R158; one line is one step, log 17). -/
def Obligations.StepRunsTranslatedLine : Prop :=
  ∀ (s t : State) (line : Text) (rest : List Text) (i : Instr),
    s.presented = [] → s.host.phase = .reading (line :: rest) →
    translateLine s.build line = .request i →
    exec i (s.takeLine rest) = .next t →
      step s = .next t.recordResult ∧ (t.outputs.err = 0 ∨ t.outputs.err = 2) ∧
      (t.outputs.err = 0 → step s = .next { t with
        host := { t.host with output := t.host.output ++ [bitsText t.outputs.word] } }) ∧
      (t.outputs.err = 2 → step s = .next { t with
        host := { t.host with
          diagnostics := t.host.diagnostics ++ [(s.host.lineNo + 1, .fieldOverflow)] } })

/-- A table word placed with `withFetchWord` is what the very next step runs. -/
def Obligations.FetchedTableWordRuns : Prop :=
  ∀ (s : State) (nbits w : Nat) (i : Instr),
    decodeTableWord nbits w = some i → step (s.withFetchWord nbits w) = exec i s

/-- Every instruction on every state, and every step, answers a next state: nothing is stuck
(30_encoding.md R79). -/
def Obligations.EveryStepAnswersNext : Prop :=
  (∀ (i : Instr) (s : State), ∃ t, exec i s = .next t) ∧ ∀ s : State, ∃ t, step s = .next t

/-- Requests on the ports round-trip, and selector 7 is the only port value that requests nothing
(30_encoding.md R75, R78). -/
def Obligations.PortRequestsRoundTrip : Prop :=
  (∀ i : Instr, decodePorts (encodePorts i) = some i) ∧
  (∀ (p : Ports) (i : Instr), decodePorts p = some i → encodePorts i = p) ∧
  (∀ p : Ports, decodePorts p = none ↔ p.mnSel = 7)

/-- Words written out bit by bit from the layouts decode to their instructions; one with a wrong
funct7 decodes to none. -/
def Obligations.TableWordsDecode : Prop :=
  decodeTableWord 32 0b0100000_00011_00010_000_00001_0110011 = some (.sub 1 2 3) ∧
  decodeTableWord 32 0b0000000_01100_01011_110_01010_0110011 = some (.or 10 11 12) ∧
  decodeTableWord 32 0b0000000_00101_00100_101_00011_0110011 = some (.srl 3 4 5) ∧
  decodeTableWord 32 0b000000001000_00110_001_00101_0000011 = some (.lh 5 6 8) ∧
  decodeTableWord 32 0b111111111111_00110_111_00101_0010011 = some (.andi 5 6 (-1)) ∧
  decodeTableWord 32 0b0000001_00011_00010_001_00100_0100011 = some (.sh 2 3 36) ∧
  decodeTableWord 32 0b0000001_00010_00001_000_10011_1100011 = some (.beq 1 2 2098) ∧
  decodeTableWord 32 0b1111111_00011_00010_000_00001_0110011 = none

/-! ### The seven instructions: result, frame and completion

In each, the equation of states says that nothing but the inputs present and the sampled outputs
changes. That the state holds these two is the model's choice (log 1). -/

/-- `sub` (40_r_format.md R101). -/
def Obligations.SubBuildsItsWord : Prop :=
  ∀ (rd rs1 rs2 : Port) (s : State), s.build.table = descriptorTable →
    ((s.build.overflow = .reject →
        regInRange rd = true ∧ regInRange rs1 = true ∧ regInRange rs2 = true) →
      exec (.sub rd rs1 rs2) s = .next { s with
        ports := ⟨2, rd, rs1, rs2⟩
        outputs := ⟨0b0100000#7 ++ rs2.extractLsb' 0 5 ++ rs1.extractLsb' 0 5 ++ 0b000#3 ++
          rd.extractLsb' 0 5 ++ 0b0110011#7, 0, 0, 0⟩ }) ∧
    (s.build.overflow = .reject →
      ¬(regInRange rd = true ∧ regInRange rs1 = true ∧ regInRange rs2 = true) →
      exec (.sub rd rs1 rs2) s = .next { s with
        ports := ⟨2, rd, rs1, rs2⟩, outputs := ⟨0, 2, 0, 0⟩ })

/-- `or` (40_r_format.md R102). The row's numbers are the spec's general knowledge (decision D4,
log 10). -/
def Obligations.OrBuildsItsWord : Prop :=
  ∀ (rd rs1 rs2 : Port) (s : State), s.build.table = descriptorTable →
    ((s.build.overflow = .reject →
        regInRange rd = true ∧ regInRange rs1 = true ∧ regInRange rs2 = true) →
      exec (.or rd rs1 rs2) s = .next { s with
        ports := ⟨3, rd, rs1, rs2⟩
        outputs := ⟨0b0000000#7 ++ rs2.extractLsb' 0 5 ++ rs1.extractLsb' 0 5 ++ 0b110#3 ++
          rd.extractLsb' 0 5 ++ 0b0110011#7, 0, 0, 0⟩ }) ∧
    (s.build.overflow = .reject →
      ¬(regInRange rd = true ∧ regInRange rs1 = true ∧ regInRange rs2 = true) →
      exec (.or rd rs1 rs2) s = .next { s with
        ports := ⟨3, rd, rs1, rs2⟩, outputs := ⟨0, 2, 0, 0⟩ })

/-- `srl` (40_r_format.md R103). The row's numbers are the spec's general knowledge (decision D4,
log 10). -/
def Obligations.SrlBuildsItsWord : Prop :=
  ∀ (rd rs1 rs2 : Port) (s : State), s.build.table = descriptorTable →
    ((s.build.overflow = .reject →
        regInRange rd = true ∧ regInRange rs1 = true ∧ regInRange rs2 = true) →
      exec (.srl rd rs1 rs2) s = .next { s with
        ports := ⟨5, rd, rs1, rs2⟩
        outputs := ⟨0b0000000#7 ++ rs2.extractLsb' 0 5 ++ rs1.extractLsb' 0 5 ++ 0b101#3 ++
          rd.extractLsb' 0 5 ++ 0b0110011#7, 0, 0, 0⟩ }) ∧
    (s.build.overflow = .reject →
      ¬(regInRange rd = true ∧ regInRange rs1 = true ∧ regInRange rs2 = true) →
      exec (.srl rd rs1 rs2) s = .next { s with
        ports := ⟨5, rd, rs1, rs2⟩, outputs := ⟨0, 2, 0, 0⟩ })

/-- `lh` (41_i_format.md R111). The row's numbers are the spec's general knowledge (decision D4,
log 10). -/
def Obligations.LhBuildsItsWord : Prop :=
  ∀ (rd rs1 imm : Port) (s : State), s.build.table = descriptorTable →
    ((s.build.overflow = .reject →
        regInRange rd = true ∧ regInRange rs1 = true ∧ -2048 ≤ imm.toInt ∧ imm.toInt ≤ 2047) →
      exec (.lh rd rs1 imm) s = .next { s with
        ports := ⟨0, rd, rs1, imm⟩
        outputs := ⟨imm.extractLsb' 0 12 ++ rs1.extractLsb' 0 5 ++ 0b001#3 ++
          rd.extractLsb' 0 5 ++ 0b0000011#7, 0, 1, 2⟩ }) ∧
    (s.build.overflow = .reject →
      ¬(regInRange rd = true ∧ regInRange rs1 = true ∧ -2048 ≤ imm.toInt ∧ imm.toInt ≤ 2047) →
      exec (.lh rd rs1 imm) s = .next { s with
        ports := ⟨0, rd, rs1, imm⟩, outputs := ⟨0, 2, 1, 2⟩ })

/-- `andi` (41_i_format.md R112). -/
def Obligations.AndiBuildsItsWord : Prop :=
  ∀ (rd rs1 imm : Port) (s : State), s.build.table = descriptorTable →
    ((s.build.overflow = .reject →
        regInRange rd = true ∧ regInRange rs1 = true ∧ -2048 ≤ imm.toInt ∧ imm.toInt ≤ 2047) →
      exec (.andi rd rs1 imm) s = .next { s with
        ports := ⟨4, rd, rs1, imm⟩
        outputs := ⟨imm.extractLsb' 0 12 ++ rs1.extractLsb' 0 5 ++ 0b111#3 ++
          rd.extractLsb' 0 5 ++ 0b0010011#7, 0, 1, 1⟩ }) ∧
    (s.build.overflow = .reject →
      ¬(regInRange rd = true ∧ regInRange rs1 = true ∧ -2048 ≤ imm.toInt ∧ imm.toInt ≤ 2047) →
      exec (.andi rd rs1 imm) s = .next { s with
        ports := ⟨4, rd, rs1, imm⟩, outputs := ⟨0, 2, 1, 1⟩ })

/-- `sh` (42_s_format.md R121): in `compat` mode the upper immediate field holds bits 11:5 of the
magnitude, in `twos` mode bits 11:5 of the immediate. The row's numbers are the spec's general
knowledge (decision D4, log 10). -/
def Obligations.ShBuildsItsWord : Prop :=
  ∀ (rs1 rs2 imm : Port) (s : State), s.build.table = descriptorTable →
    ((s.build.overflow = .reject →
        regInRange rs1 = true ∧ regInRange rs2 = true ∧ -2048 ≤ imm.toInt ∧ imm.toInt ≤ 2047) →
      exec (.sh rs1 rs2 imm) s = .next { s with
        ports := ⟨1, rs1, rs2, imm⟩
        outputs := ⟨(if s.build.split = .compat ∧ imm.toInt < 0 then (-imm).extractLsb' 5 7
            else imm.extractLsb' 5 7) ++ rs2.extractLsb' 0 5 ++ rs1.extractLsb' 0 5 ++ 0b001#3 ++
          imm.extractLsb' 0 5 ++ 0b0100011#7, 0, 2, 2⟩ }) ∧
    (s.build.overflow = .reject →
      ¬(regInRange rs1 = true ∧ regInRange rs2 = true ∧ -2048 ≤ imm.toInt ∧ imm.toInt ≤ 2047) →
      exec (.sh rs1 rs2 imm) s = .next { s with
        ports := ⟨1, rs1, rs2, imm⟩, outputs := ⟨0, 2, 2, 2⟩ })

/-- `beq` (43_sb_format.md R131, fields as R130): in `compat` mode bit 31 is 0 and bits 30:25 are bits
10:5 of the magnitude, and -4096 overflows; in `twos` mode they are bits 12 and 10:5 of the offset.
The row's numbers are the spec's general knowledge (decision D5, log 10). -/
def Obligations.BeqBuildsItsWord : Prop :=
  ∀ (rs1 rs2 imm : Port) (s : State), s.build.table = descriptorTable →
    ((s.build.overflow = .reject →
        regInRange rs1 = true ∧ regInRange rs2 = true ∧ -4096 ≤ imm.toInt ∧ imm.toInt ≤ 4095 ∧
        ¬(s.build.split = .compat ∧ imm.toInt = -4096)) →
      exec (.beq rs1 rs2 imm) s = .next { s with
        ports := ⟨6, rs1, rs2, imm⟩
        outputs := ⟨(if s.build.split = .compat then
              (if imm.toInt < 0 then 0#1 ++ (-imm).extractLsb' 5 6 else 0#1 ++ imm.extractLsb' 5 6)
            else imm.extractLsb' 12 1 ++ imm.extractLsb' 5 6 : BitVec 7) ++
          rs2.extractLsb' 0 5 ++ rs1.extractLsb' 0 5 ++ 0b000#3 ++
          (imm.extractLsb' 1 4 ++ imm.extractLsb' 11 1) ++ 0b1100011#7, 0, 3, 1⟩ }) ∧
    (s.build.overflow = .reject →
      ¬(regInRange rs1 = true ∧ regInRange rs2 = true ∧ -4096 ≤ imm.toInt ∧ imm.toInt ≤ 4095 ∧
        ¬(s.build.split = .compat ∧ imm.toInt = -4096)) →
      exec (.beq rs1 rs2 imm) s = .next { s with
        ports := ⟨6, rs1, rs2, imm⟩, outputs := ⟨0, 2, 3, 1⟩ })

/-- What every meaning leaves unchanged: the build parameters, the presentations still waiting and all
of the host's data; it presents its own request and samples the outputs for it. That the
state holds them is the model's choice (log 1). -/
def Obligations.ExecFrame : Prop :=
  ∀ (i : Instr) (s t : State), exec i s = .next t →
    t.build = s.build ∧ t.presented = s.presented ∧ t.host = s.host ∧
    t.ports = encodePorts i ∧ t.outputs = encodeBlock s.build (encodePorts i)

/-! ### The format families, for every well-formed descriptor table -/

/-- Format R (40_r_format.md R100). -/
def Obligations.FormatRFamily : Prop :=
  ∀ (b : Build) (m : Mnemonic) (f7 : BitVec 7) (rd rs1 rs2 : Port),
    b.table.wellFormed = true → (b.table.row m).layout = .R f7 →
    ((b.overflow = .reject →
        regInRange rd = true ∧ regInRange rs1 = true ∧ regInRange rs2 = true) →
      encodeBlock b ⟨m.selector, rd, rs1, rs2⟩ =
        ⟨f7 ++ rs2.extractLsb' 0 5 ++ rs1.extractLsb' 0 5 ++ (b.table.row m).funct3 ++
          rd.extractLsb' 0 5 ++ (b.table.row m).opcode, 0, 0, 0⟩) ∧
    (b.overflow = .reject →
      ¬(regInRange rd = true ∧ regInRange rs1 = true ∧ regInRange rs2 = true) →
      encodeBlock b ⟨m.selector, rd, rs1, rs2⟩ = ⟨0, 2, 0, 0⟩)

/-- Format I (41_i_format.md R110). -/
def Obligations.FormatIFamily : Prop :=
  ∀ (b : Build) (m : Mnemonic) (rd rs1 imm : Port),
    (b.table.row m).layout = .I →
    ((b.overflow = .reject →
        regInRange rd = true ∧ regInRange rs1 = true ∧ -2048 ≤ imm.toInt ∧ imm.toInt ≤ 2047) →
      encodeBlock b ⟨m.selector, rd, rs1, imm⟩ =
        ⟨imm.extractLsb' 0 12 ++ rs1.extractLsb' 0 5 ++ (b.table.row m).funct3 ++
          rd.extractLsb' 0 5 ++ (b.table.row m).opcode, 0, 1, shapeCode (b.table.row m).shape⟩) ∧
    (b.overflow = .reject →
      ¬(regInRange rd = true ∧ regInRange rs1 = true ∧ -2048 ≤ imm.toInt ∧ imm.toInt ≤ 2047) →
      encodeBlock b ⟨m.selector, rd, rs1, imm⟩ = ⟨0, 2, 1, shapeCode (b.table.row m).shape⟩)

/-- Format S (42_s_format.md R120): the fields of the word are `pack(ARS(imm, 5), 7)` and
`band(imm, 0b11111)` of the integer immediate. -/
def Obligations.FormatSFamily : Prop :=
  ∀ (b : Build) (m : Mnemonic) (rs1 rs2 imm : Port),
    (b.table.row m).layout = .S →
    ((b.overflow = .reject →
        regInRange rs1 = true ∧ regInRange rs2 = true ∧ -2048 ≤ imm.toInt ∧ imm.toInt ≤ 2047) →
      let o := encodeBlock b ⟨m.selector, rs1, rs2, imm⟩
      o.err = 0 ∧ o.fmt = 2 ∧
      immHiS b.overflow b.split imm.toInt = some (o.word.extractLsb' 25 7).toNat ∧
      o.word.extractLsb' 20 5 = rs2.extractLsb' 0 5 ∧
      o.word.extractLsb' 15 5 = rs1.extractLsb' 0 5 ∧
      o.word.extractLsb' 12 3 = (b.table.row m).funct3 ∧
      (o.word.extractLsb' 7 5).toNat = band imm.toInt 0b11111 ∧
      o.word.extractLsb' 0 7 = (b.table.row m).opcode) ∧
    (b.overflow = .reject →
      ¬(regInRange rs1 = true ∧ regInRange rs2 = true ∧ -2048 ≤ imm.toInt ∧ imm.toInt ≤ 2047) →
      encodeBlock b ⟨m.selector, rs1, rs2, imm⟩ = ⟨0, 2, 2, shapeCode (b.table.row m).shape⟩)

/-- Format SB (43_sb_format.md R130): the fields of the word are the two packed expressions of the
integer offset; `compat` mode overflows at -4096. -/
def Obligations.FormatSBFamily : Prop :=
  ∀ (b : Build) (m : Mnemonic) (rs1 rs2 imm : Port),
    (b.table.row m).layout = .SB →
    ((b.overflow = .reject →
        regInRange rs1 = true ∧ regInRange rs2 = true ∧ -4096 ≤ imm.toInt ∧ imm.toInt ≤ 4095 ∧
        ¬(b.split = .compat ∧ imm.toInt = -4096)) →
      let o := encodeBlock b ⟨m.selector, rs1, rs2, imm⟩
      o.err = 0 ∧ o.fmt = 3 ∧
      immHiSB b.overflow b.split imm.toInt = some (o.word.extractLsb' 25 7).toNat ∧
      o.word.extractLsb' 20 5 = rs2.extractLsb' 0 5 ∧
      o.word.extractLsb' 15 5 = rs1.extractLsb' 0 5 ∧
      o.word.extractLsb' 12 3 = (b.table.row m).funct3 ∧
      immLoSB b.overflow imm.toInt = some (o.word.extractLsb' 7 5).toNat ∧
      o.word.extractLsb' 0 7 = (b.table.row m).opcode) ∧
    (b.overflow = .reject →
      ¬(regInRange rs1 = true ∧ regInRange rs2 = true ∧ -4096 ≤ imm.toInt ∧ imm.toInt ≤ 4095 ∧
        ¬(b.split = .compat ∧ imm.toInt = -4096)) →
      encodeBlock b ⟨m.selector, rs1, rs2, imm⟩ = ⟨0, 2, 3, shapeCode (b.table.row m).shape⟩)

/-! ### The multiplexer and the errors -/

/-- The decoder multiplexer and its codes (30_encoding.md R75, R76). -/
def Obligations.MultiplexerDrivesFormatAndShape : Prop :=
  ∀ (b : Build) (p : Ports),
    (p.mnSel = 7 → (encodeBlock b p).err = 1 ∧ (encodeBlock b p).fmt = 0 ∧
      (encodeBlock b p).shape = 3) ∧
    (p.mnSel ≠ 7 → ∃ d, b.table.rows[p.mnSel.toNat]? = some d ∧
      (encodeBlock b p).err ≠ 1 ∧
      (encodeBlock b p).fmt =
        (match d.layout with | .R _ => 0 | .I => 1 | .S => 2 | .SB => 3) ∧
      (encodeBlock b p).shape =
        (match d.shape with | .registerList => 0 | .registerImmediate => 1 | .registerOffset => 2))

/-- UnknownMnemonic (60_exceptions.md R161): selector 7 with any operands, and every line whose
mnemonic is none of the seven spellings, whatever follows it. Three parts are the model's choice: the
queue a presentation waits in (log 4), that selector 7 and its outputs stay on the block after the
failing line (log 8), and that one line is one step (log 17). -/
def Obligations.UnknownMnemonicIsReported : Prop :=
  (∀ (s : State) (a b c : Port) (rest : List Ports), s.presented = ⟨7, a, b, c⟩ :: rest →
    step s = .next { s with presented := rest, ports := ⟨7, a, b, c⟩, outputs := ⟨0, 1, 0, 3⟩ }) ∧
  (∀ (s : State) (line mn ops : Text) (unread : List Text),
    s.presented = [] → s.host.phase = .reading (line :: unread) →
    tokenize line = some (mn, ops) → (∀ m, spelling m ≠ mn) →
    ∃ t, step s = .next t ∧ t.ports.mnSel = 7 ∧ t.outputs = ⟨0, 1, 0, 3⟩ ∧
      t.host = { s.host with
        phase := .reading unread
        lineNo := s.host.lineNo + 1
        diagnostics := s.host.diagnostics ++ [(s.host.lineNo + 1, .unknownMnemonic)] })

/-- What the block drives on an error (60_exceptions.md R165); code 3 is never driven (10_state.md
R26). -/
def Obligations.ErrorDrivesZeroWord : Prop :=
  (∀ (b : Build) (p : Ports), (encodeBlock b p).err ≠ 3 ∧
    ((encodeBlock b p).err ≠ 0 → (encodeBlock b p).word = 0) ∧
    ((encodeBlock b p).err = 1 → (encodeBlock b p).fmt = 0 ∧ (encodeBlock b p).shape = 3) ∧
    ((encodeBlock b p).err = 2 → ∃ m, Mnemonic.ofSelector p.mnSel = some m ∧
      (encodeBlock b p).fmt = fmtCode (b.table.row m).layout ∧
      (encodeBlock b p).shape = shapeCode (b.table.row m).shape)) ∧
  (∀ (i : Instr) (s t : State), exec i s = .next t → t.outputs.err ≠ 0 →
    t = { s with ports := encodePorts i, outputs := t.outputs })

/-- FieldOverflow exactly in the three cases of 60_exceptions.md R162. -/
def Obligations.FieldOverflowExactlyOutOfRange : Prop :=
  ∀ (b : Build) (p : Ports), b.table = descriptorTable →
    ((encodeBlock b p).err = 2 ↔
      b.overflow = .reject ∧ ∃ i, decodePorts p = some i ∧
        (i.wellFormed = false ∨ (b.split = .compat ∧
          ∃ rs1 rs2 imm, i = .beq rs1 rs2 imm ∧ imm.toInt = -4096)))

/-- Under `truncate` nothing overflows and every field is its value's low bits (30_encoding.md R63). -/
def Obligations.TruncateNeverOverflows : Prop :=
  (∀ (r : Int), checkReg .truncate r = some ()) ∧
  (∀ (v lo hi : Int), checkImm .truncate v lo hi = some ()) ∧
  (∀ (v : Int) (w : Nat), ∃ n, pack .truncate v w = some n ∧ (n : Int) = v % 2 ^ w) ∧
  (∀ (b : Build) (p : Ports), b.overflow = .truncate → (encodeBlock b p).err ≠ 2)

/-- One error is reported, in the order UnknownMnemonic, MalformedOperand, FieldOverflow
(60_exceptions.md R164): a line's result is the diagnostic of the first that applies, and where none
applies it is an output line. -/
def Obligations.ErrorPriority : Prop :=
  (∀ (b : Build) (line mn ops : Text) (n : Nat), tokenize line = some (mn, ops) →
    ((∀ m, spelling m ≠ mn) → assembleLine b line n = .diag n .unknownMnemonic) ∧
    (∀ m, spelling m = mn →
      (parseOperands (b.table.row m).shape ops = none →
        assembleLine b line n = .diag n .malformedOperand) ∧
      (∀ v, parseOperands (b.table.row m).shape ops = some v →
        let fit := valuesFit b.split (b.table.row m).layout
          (tupleOrder (b.table.row m).layout (b.table.row m).shape v)
        (b.overflow = .reject → ¬fit → assembleLine b line n = .diag n .fieldOverflow) ∧
        ((b.overflow = .reject → fit) → ∃ text, assembleLine b line n = .out text)))) ∧
  (∀ (b : Build) (x y z : Port), (encodeBlock b ⟨7, x, y, z⟩).err = 1)

/-! ### Field values -/

/-- The two shifts (30_encoding.md R57, R58): both floor a non-negative value; of a negative value
`ars_compat` gives the shifted magnitude, never negative, and `ars_twos` floors. -/
def Obligations.ShiftsOfTheTwoModes : Prop :=
  ∀ (v : Int) (n : Nat),
    (0 ≤ v → arsCompat v n = v / 2 ^ n) ∧ (v < 0 → arsCompat v n = (-v) / 2 ^ n) ∧
    0 ≤ arsCompat v n ∧ arsTwos v n = v / 2 ^ n

/-- `band` of a port is the 32-bit AND with the mask (30_encoding.md R60). -/
def Obligations.BandIsThePortAnd : Prop :=
  ∀ (p : Port) (m : Nat), m < 2 ^ 32 → band (sval p) m = (p &&& BitVec.ofNat 32 m).toNat

/-- A register field is `pack(r, 5)`, which is the index itself in [0, 31] (30_encoding.md R70). -/
def Obligations.RegisterFieldRoundTrip : Prop :=
  (∀ (policy : OverflowPolicy) (r : Int), packReg policy r = pack policy r 5) ∧
  (∀ (policy : OverflowPolicy) (r : Nat), r ≤ 31 → packReg policy (r : Int) = some r)

/-- The S upper field by mode (30_encoding.md R66). -/
def Obligations.StoreUpperFieldByMode : Prop :=
  ∀ (policy : OverflowPolicy) (imm : Int), -2048 ≤ imm → imm ≤ 2047 →
    (0 ≤ imm → ∃ n, immHiS policy .compat imm = some n ∧ (n : Int) = imm / 32 ∧
      n = slice imm 11 5 ∧ n ≤ 63) ∧
    (imm < 0 → ∃ n, immHiS policy .compat imm = some n ∧ (n : Int) = (-imm) / 32 ∧ n ≤ 64) ∧
    (∃ n, immHiS policy .twos imm = some n ∧ (n : Int) = imm / 32 % 128 ∧ n = slice imm 11 5)

/-- The SB lower field is `{imm[4:1], imm[11]}` for every port value (30_encoding.md R67). -/
def Obligations.BranchLowerField : Prop :=
  ∀ (policy : OverflowPolicy) (p : Port),
    immLoSB policy (sval p) = some (2 * slice (sval p) 4 1 + bitOf (sval p) 11)

/-- The SB upper field in `compat` mode (30_encoding.md R68). -/
def Obligations.BranchUpperFieldCompat : Prop :=
  (∀ (policy : OverflowPolicy) (imm : Int) (n : Nat),
    immHiSB policy .compat imm = some n → n < 64) ∧
  (∀ imm : Int, -4096 ≤ imm → imm ≤ 4095 →
    (0 ≤ imm → immHiValueSB .compat imm = slice imm 10 5) ∧
    (imm < 0 → immHiValueSB .compat imm =
      slice (-imm) 10 5 + if 4096 ≤ -imm then 128 else 0) ∧
    (imm ≠ -4096 → ∀ policy, immHiSB policy .compat imm = some (immHiValueSB .compat imm))) ∧
  immHiSB .reject .compat (-4096) = none ∧ immHiSB .truncate .compat (-4096) = some 0

/-- The SB upper field in `twos` mode (30_encoding.md R69). -/
def Obligations.BranchUpperFieldTwos : Prop :=
  ∀ (policy : OverflowPolicy) (imm : Int), -4096 ≤ imm → imm ≤ 4095 →
    ∃ n, immHiSB policy .twos imm = some n ∧ n = 64 * bitOf imm 12 + slice imm 10 5 ∧ n < 128 ∧
      (64 ≤ n ↔ imm < 0)

/-- The immediate an S word carries (42_s_format.md R122). -/
def Obligations.StoreWordCarriesImmediate : Prop :=
  ∀ (b : Build) (m : Mnemonic) (rs1 rs2 imm : Port),
    (b.table.row m).layout = .S → -2048 ≤ imm.toInt → imm.toInt ≤ 2047 →
    (encodeBlock b ⟨m.selector, rs1, rs2, imm⟩).err = 0 →
    let w := (encodeBlock b ⟨m.selector, rs1, rs2, imm⟩).word
    let e := (w.extractLsb' 25 7).toNat * 32 + (w.extractLsb' 7 5).toNat
    (b.split = .twos → (e : Int) = imm.toInt % 4096 ∧ imm.toInt = signExt 12 e) ∧
    (b.split = .compat → 0 ≤ imm.toInt → (e : Int) = imm.toInt) ∧
    (b.split = .compat → imm.toInt < 0 →
      (e : Int) = 32 * ((-imm.toInt) / 32) + imm.toInt % 32 ∧
      (imm.toInt % 32 = 0 → (e : Int) = -imm.toInt) ∧
      (imm.toInt % 32 ≠ 0 → (e : Int) = -imm.toInt + 32 - 2 * ((-imm.toInt) % 32)) ∧
      1 ≤ e ∧ e ≤ 2048 ∧ (e = 2048 ↔ imm.toInt = -2048) ∧
      (e ≤ 2047 → encodeBlock b ⟨m.selector, rs1, rs2, BitVec.ofNat 32 e⟩ =
        encodeBlock b ⟨m.selector, rs1, rs2, imm⟩))

/-- The offset an SB word carries in `twos` mode (43_sb_format.md R132). -/
def Obligations.BranchWordCarriesOffset : Prop :=
  ∀ (b : Build) (m : Mnemonic) (rs1 rs2 imm : Port),
    (b.table.row m).layout = .SB → b.split = .twos → -4096 ≤ imm.toInt → imm.toInt ≤ 4095 →
    (encodeBlock b ⟨m.selector, rs1, rs2, imm⟩).err = 0 →
    let w := (encodeBlock b ⟨m.selector, rs1, rs2, imm⟩).word
    (w.extractLsb' 31 1 ++ w.extractLsb' 7 1 ++ w.extractLsb' 25 6 ++ w.extractLsb' 8 4 ++
      0#1).toInt = imm.toInt - imm.toInt % 2 ∧
    (w.msb = true ↔ imm.toInt < 0)

/-- Odd offsets are accepted in both modes, and in `twos` mode an odd offset gives the word of the even
one below it (43_sb_format.md R133). -/
def Obligations.OddBranchOffsetsAccepted : Prop :=
  ∀ (b : Build) (m : Mnemonic) (rs1 rs2 imm : Port),
    (b.table.row m).layout = .SB → regInRange rs1 = true → regInRange rs2 = true →
    -4096 ≤ imm.toInt → imm.toInt ≤ 4095 → imm.toInt % 2 = 1 →
    (encodeBlock b ⟨m.selector, rs1, rs2, imm⟩).err = 0 ∧
    (b.split = .twos ∨ 0 ≤ imm.toInt → encodeBlock b ⟨m.selector, rs1, rs2, imm⟩ =
      encodeBlock b ⟨m.selector, rs1, rs2, imm - 1⟩)

/-- What an SB word carries in `compat` mode (43_sb_format.md R134, its three listed items). -/
def Obligations.BranchWordInCompatMode : Prop :=
  ∀ (b : Build) (m : Mnemonic) (rs1 rs2 imm : Port),
    (b.table.row m).layout = .SB → b.split = .compat →
    let w := (encodeBlock b ⟨m.selector, rs1, rs2, imm⟩).word
    w.msb = false ∧
    (0 ≤ imm.toInt → imm.toInt ≤ 4095 →
      encodeBlock b ⟨m.selector, rs1, rs2, imm⟩ =
        encodeBlock { b with split := .twos } ⟨m.selector, rs1, rs2, imm⟩) ∧
    (imm.toInt ≤ 4095 → -4096 < imm.toInt →
      (encodeBlock b ⟨m.selector, rs1, rs2, imm⟩).err = 0 →
      w.extractLsb' 25 6 = (if imm.toInt < 0 then -imm else imm).extractLsb' 5 6 ∧
      w.extractLsb' 8 4 = imm.extractLsb' 1 4 ∧ w.extractLsb' 7 1 = imm.extractLsb' 11 1)

/-- Every `compat` word of a negative offset, read with the `twos` layout, gives a POSITIVE offset
(43_sb_format.md R134, its closing sentence). Expected to fail: -2079 reads as 0. -/
def Obligations.CompatNegativeOffsetReadsPositive : Prop :=
  ∀ (b : Build) (rs1 rs2 imm : Port),
    b.table = descriptorTable → b.split = .compat → -4096 ≤ imm.toInt → imm.toInt < 0 →
    (encodeBlock b ⟨6, rs1, rs2, imm⟩).err = 0 →
    let w := (encodeBlock b ⟨6, rs1, rs2, imm⟩).word
    0 < (w.extractLsb' 31 1 ++ w.extractLsb' 7 1 ++ w.extractLsb' 25 6 ++ w.extractLsb' 8 4 ++
      0#1).toInt

/-- The source's two SB properties, with where each holds (43_sb_format.md R135). -/
def Obligations.BranchOffsetProperties : Prop :=
  ∀ (b : Build) (m : Mnemonic) (rs1 rs2 imm : Port),
    (b.table.row m).layout = .SB →
    let w := (encodeBlock b ⟨m.selector, rs1, rs2, imm⟩).word
    (imm = 0 → w.extractLsb' 25 7 = 0 ∧ w.extractLsb' 7 5 = 0) ∧
    ((encodeBlock b ⟨m.selector, rs1, rs2, imm⟩).err = 0 → b.split = .twos →
      (-4096 ≤ imm.toInt → imm.toInt < 0 → w.msb = true) ∧
      (2048 ≤ imm.toInt → imm.toInt ≤ 4095 → w.msb = false ∧ w.getLsbD 7 = true)) ∧
    (b.split = .compat → w.msb = false)

/-! ### Words -/

/-- Every word built matches exactly one row of the table, the selected one (30_encoding.md R81). -/
def Obligations.BuiltWordMatchesExactlyOneRow : Prop :=
  ∀ (b : Build) (p : Ports), b.table = descriptorTable →
    (p.mnSel = 7 → (encodeBlock b p).err = 1) ∧
    ((encodeBlock b p).err = 0 → ∃ m, m.selector = p.mnSel ∧
      (∀ n, (b.table.row n).matchesWord (encodeBlock b p).word = true ↔ n = m))

/-- The block's integer definition refines to the bit layout of R51 to R54 (30_encoding.md R77): on
every instruction its outputs are the word of `encodeWord`, or FieldOverflow. -/
def Obligations.BlockRefinesBitLayout : Prop :=
  ∀ (b : Build) (i : Instr), b.table = descriptorTable →
    (accepted b i → encodeBlock b (encodePorts i) =
      ⟨encodeWord b.split b.table i, 0, fmtCode (b.table.row i.mnemonic).layout,
        shapeCode (b.table.row i.mnemonic).shape⟩) ∧
    (¬accepted b i → encodeBlock b (encodePorts i) =
      ⟨0, 2, fmtCode (b.table.row i.mnemonic).layout, shapeCode (b.table.row i.mnemonic).shape⟩)

/-- Decode and encode agree: a well-formed instruction that its word shows whole is read back. The
word decoder is the model's own (log 7). -/
def Obligations.DecodeInvertsEncodeWord : Prop :=
  ∀ (mode : ImmSplitMode) (i : Instr), i.wellFormed = true → recoverable mode i →
    decodeWord mode descriptorTable (encodeWord mode descriptorTable i) = .ok i

/-- The other direction: what the word decoder reads is well-formed, and the block builds that very
word from it, under either policy (log 7). -/
def Obligations.DecodedWordIsRebuilt : Prop :=
  ∀ (b : Build) (w : Word) (i : Instr), b.table = descriptorTable →
    decodeWord b.split b.table w = .ok i →
    i.wellFormed = true ∧ (encodeBlock b (encodePorts i)).err = 0 ∧
      (encodeBlock b (encodePorts i)).word = w

/-- Under `reject` the word decoder reads every word the block builds, so what it rejects is never
built (log 7). -/
def Obligations.EveryBuiltWordDecodes : Prop :=
  ∀ (b : Build) (p : Ports), b.table = descriptorTable → b.overflow = .reject →
    (encodeBlock b p).err = 0 → ∃ i, decodeWord b.split b.table (encodeBlock b p).word = .ok i ∧
      i.mnemonic.selector = p.mnSel

/-- The policy changes nothing where `reject` builds a word (00_scope.md R6). -/
def Obligations.PolicyOnlyChangesRejectedRequests : Prop :=
  ∀ (b : Build) (p : Ports), (encodeBlock { b with overflow := .reject } p).err ≠ 2 →
    encodeBlock { b with overflow := .truncate } p = encodeBlock { b with overflow := .reject } p

/-- The split mode changes nothing in formats R and I, nor for a non-negative in-range S or SB immediate
(00_scope.md R6). -/
def Obligations.SplitModeOnlyChangesNegativeImmediates : Prop :=
  ∀ (b : Build) (m : Mnemonic) (x y z : Port),
    ((b.table.row m).layout = .S ∨ (b.table.row m).layout = .SB → 0 ≤ z.toInt ∧ z.toInt ≤ 4095) →
    encodeBlock { b with split := .twos } ⟨m.selector, x, y, z⟩ =
      encodeBlock { b with split := .compat } ⟨m.selector, x, y, z⟩

/-- The table of this hardware is well-formed (30_encoding.md R73), and its two rows whose numbers the
source gives are those (30_encoding.md R74). -/
def Obligations.HardwareTableWellFormed : Prop :=
  descriptorTable.wellFormed = true ∧
  descriptorTable.row .sub = ⟨.R 0b0100000#7, 0b0110011#7, 0b000#3, .registerList⟩ ∧
  descriptorTable.row .andi = ⟨.I, 0b0010011#7, 0b111#3, .registerImmediate⟩

/-! ### Invariants and independence -/

/-- The outputs held stay the block's outputs for the inputs present (10_state.md R20, R28). Holding
them is the model's choice (log 1). -/
def Obligations.StepKeepsOutputsCoherent : Prop :=
  ∀ s t : State, s.coherent → step s = .next t → t.coherent

/-- The record of the run stays sound (44_assembler_syntax.md R153 to R156). That one line is one step
and that a failed opening leaves nothing written are the model's choice (logs 17, 20). -/
def Obligations.StepKeepsRecordSound : Prop :=
  ∀ s t : State, s.recordSound → step s = .next t → t.recordSound

/-- Reset: both invariants hold, and the build parameters are those of this hardware
(70_reset_and_hazards.md R181, 00_scope.md R6). -/
def Obligations.ResetIsSound : Prop :=
  State.reset.coherent ∧ State.reset.recordSound ∧
  State.reset.build.overflow = .reject ∧ State.reset.build.split = .compat ∧
  State.reset.build.table = descriptorTable

/-- No step changes the build parameters (10_state.md R21, 70_reset_and_hazards.md R181). -/
def Obligations.StepNeverChangesBuild : Prop :=
  ∀ s t : State, step s = .next t → t.build = s.build

/-- What the host reads and writes never depends on the inputs or outputs that earlier evaluations left
on the block (20_memory.md R45, 70_reset_and_hazards.md R183). -/
def Obligations.RecordIndependentOfHistory : Prop :=
  ∀ s u t v : State, s.build = u.build → s.host = u.host → s.presented = u.presented →
    step s = .next t → step u = .next v → t.host = v.host ∧ t.presented = v.presented

/-! ### The host -/

/-- A step on a line does what `AssembleLine` gives for it, and the rest of the lines stays unread; a
line that makes a request gives the output line of its word where the block's `err` is 0, and the
FieldOverflow diagnostic where it is 2 (44_assembler_syntax.md R152, R155, R158; one line is one step,
log 17). -/
def Obligations.LineStepFollowsAssembleLine : Prop :=
  (∀ (s : State) (line : Text) (rest : List Text),
    s.presented = [] → s.host.phase = .reading (line :: rest) →
    ∃ t, step s = .next t ∧ t.build = s.build ∧ t.presented = [] ∧
      t.host =
        (match assembleLine s.build line (s.host.lineNo + 1) with
         | .skip     => { s.host with phase := .reading rest, lineNo := s.host.lineNo + 1 }
         | .out x    => { s.host with phase := .reading rest, lineNo := s.host.lineNo + 1,
                                      output := s.host.output ++ [x] }
         | .diag n e => { s.host with phase := .reading rest, lineNo := s.host.lineNo + 1,
                                      diagnostics := s.host.diagnostics ++ [(n, e)] })) ∧
  (∀ (b : Build) (line : Text) (n : Nat) (i : Instr), translateLine b line = .request i →
    ((encodeBlock b (encodePorts i)).err = 0 →
      assembleLine b line n = .out (bitsText (encodeBlock b (encodePorts i)).word)) ∧
    ((encodeBlock b (encodePorts i)).err = 2 → assembleLine b line n = .diag n .fieldOverflow))

/-- A run reads every line in order, whatever fails, writes what `AssembleLine` gives for each, and ends
with status 0 or 1 (44_assembler_syntax.md R153, R156). That a line is one step and the end one more is
the model's choice (log 17). -/
def Obligations.RunTranscribesEveryLine : Prop :=
  ∀ (s : State) (lines : List Text), s.presented = [] → s.host.phase = .reading lines →
    ∃ t, Host.Core.run Sys2Proof.core (lines.length + 1) s = .next t ∧
      t.build = s.build ∧ t.host.lineNo = s.host.lineNo + lines.length ∧
      t.host.output = s.host.output ++
        (lineResults s.build (s.host.lineNo + 1) lines).filterMap LineResult.outputLine ∧
      t.host.diagnostics = s.host.diagnostics ++
        (lineResults s.build (s.host.lineNo + 1) lines).filterMap LineResult.diagnostic ∧
      (t.host.diagnostics = [] → t.host.phase = .ended .ok) ∧
      (t.host.diagnostics ≠ [] → t.host.phase = .ended .lineFailed)

/-- Text round trip: the source line of an instruction is read back as that instruction, with every
32-bit immediate and every non-negative register index (44_assembler_syntax.md R141 to R151). -/
def Obligations.SourceLineRoundTrip : Prop :=
  ∀ (b : Build) (i : Instr), b.table = descriptorTable → writable i →
    translateLine b (sourceLine i) = .request i

/-- Tokenizing (44_assembler_syntax.md R141). -/
def Obligations.TokenizerFollowsWhitespaceRule : Prop :=
  (∀ c : Char, isSpace c = true ↔ c ∈ [' ', '\t', '\r', '\n', '\x0b', '\x0c']) ∧
  (∀ u line v : Text, u.all isSpace = true → v.all isSpace = true →
    tokenize (u ++ line ++ v) = tokenize line) ∧
  (∀ u : Text, u.all isSpace = true →
    tokenize u = none ∧ ∀ (b : Build) (n : Nat), assembleLine b u n = .skip) ∧
  (∀ (mn ops : Text) (c : Char), mn ≠ [] → mn.any isSpace = false → isSpace c = true →
    tokenize mn = some (mn, []) ∧
    tokenize (mn ++ c :: ops) = some (mn, ops.filter (fun x => !isSpace x)))

/-- Mnemonic lookup is exact, for the seven spellings (44_assembler_syntax.md R142, 30_encoding.md R74).
All but `sub` and `andi` are the spec's general knowledge (log 10). -/
def Obligations.MnemonicLookupIsExact : Prop :=
  (∀ (t : Text) (m : Mnemonic), lookupMnemonic t = some m ↔ t = spelling m) ∧
  spelling .lh = "lh".toList ∧ spelling .sh = "sh".toList ∧ spelling .sub = "sub".toList ∧
  spelling .or = "or".toList ∧ spelling .andi = "andi".toList ∧ spelling .srl = "srl".toList ∧
  spelling .beq = "beq".toList

/-- Operand texts of the wrong form are MalformedOperand (44_assembler_syntax.md R144 to R149). An
operand text parses exactly in the form of its shape, so that a wrong token count, a token that is no
register or no immediate (`ten`, `0x10`, a bare sign, nothing), a parenthesis missing, doubled or out of
place, and text after the `)` all fail, and the line gets the MalformedOperand diagnostic. -/
def Obligations.WrongFormIsMalformed : Prop :=
  (∀ (shape : Shape) (ops : Text), parseOperands shape ops = none ↔ ¬isOperandText shape ops) ∧
  (∀ (b : Build) (line ops : Text) (m : Mnemonic) (n : Nat),
    tokenize line = some (spelling m, ops) → ¬isOperandText (b.table.row m).shape ops →
      assembleLine b line n = .diag n .malformedOperand) ∧
  (∀ ops : Text, (splitOnChar ',' ops).length ≠ 3 →
    parseOperands .registerList ops = none ∧ parseOperands .registerImmediate ops = none) ∧
  (∀ ops : Text, (splitOnChar ',' ops).length ≠ 2 → parseOperands .registerOffset ops = none) ∧
  (∀ t u v : Text, ¬isRegisterToken t ∨ ¬isRegisterToken u ∨ ¬isRegisterToken v →
    parseOperands .registerList (t ++ ',' :: (u ++ ',' :: v)) = none) ∧
  (∀ t u v : Text, ¬isRegisterToken t ∨ ¬isRegisterToken u ∨ ¬isImmediateToken v →
    parseOperands .registerImmediate (t ++ ',' :: (u ++ ',' :: v)) = none) ∧
  (∀ t i r : Text, ¬isRegisterToken t ∨ ¬isImmediateToken i ∨ ¬isRegisterToken r →
    parseOperands .registerOffset (t ++ ',' :: (i ++ '(' :: (r ++ [')']))) = none) ∧
  (∀ t u : Text, u.count '(' ≠ 1 ∨ u.count ')' ≠ 1 ∨ u.getLast? ≠ some ')' →
    parseOperands .registerOffset (t ++ ',' :: u) = none) ∧
  (∀ t : Text, parseRegister t = none ↔ ¬isRegisterToken t) ∧
  (∀ t : Text, parseImmediate t = none ↔ ¬isImmediateToken t) ∧
  (∀ t : Text, parseOffset t = none ↔ ¬isOffsetToken t) ∧
  (∀ t ∈ ["", "x", "7", "sp", "x-1"].map String.toList, ¬isRegisterToken t) ∧
  (∀ t ∈ ["", "+", "-", "ten", "0x10", "+-1", "1-"].map String.toList, ¬isImmediateToken t)

/-- From parsed text to ports (44_assembler_syntax.md R151). -/
def Obligations.ParsedValuesReachTheirPorts : Prop :=
  ∀ (b : Build) (ops : Text) (x y z : Int), b.table = descriptorTable →
    let fit := b.overflow = .reject → ∀ v ∈ [x, y, z], -2147483648 ≤ v ∧ v ≤ 2147483647
    let p := fun v : Int => BitVec.ofInt 32 v
    (parseOperands .registerList ops = some (x, y, z) →
      (fit → translateOperands b .sub ops = .request (.sub (p x) (p y) (p z)) ∧
        translateOperands b .or ops = .request (.or (p x) (p y) (p z)) ∧
        translateOperands b .srl ops = .request (.srl (p x) (p y) (p z))) ∧
      (¬fit → ∀ m ∈ [Mnemonic.sub, .or, .srl], translateOperands b m ops = .overflow m)) ∧
    (parseOperands .registerImmediate ops = some (x, y, z) →
      (fit → translateOperands b .andi ops = .request (.andi (p x) (p y) (p z)) ∧
        translateOperands b .beq ops = .request (.beq (p x) (p y) (p z))) ∧
      (¬fit → ∀ m ∈ [Mnemonic.andi, .beq], translateOperands b m ops = .overflow m)) ∧
    (parseOperands .registerOffset ops = some (x, y, z) →
      (fit → translateOperands b .lh ops = .request (.lh (p x) (p z) (p y)) ∧
        translateOperands b .sh ops = .request (.sh (p z) (p x) (p y))) ∧
      (¬fit → ∀ m ∈ [Mnemonic.lh, .sh], translateOperands b m ops = .overflow m))

/-- The output line of a word (44_assembler_syntax.md R152). -/
def Obligations.OutputLineIsTheWordInBinary : Prop :=
  (∀ w : Word, (bitsText w).length = 32 ∧ (∀ c ∈ bitsText w, c = '0' ∨ c = '1') ∧
    (bitsText w).foldl (fun n c => 2 * n + if c = '1' then 1 else 0) 0 = w.toNat) ∧
  (∀ (s : State) (t : Text),
    (s.writeLine t).host.outputText = s.host.outputText ++ t ++ ['\n'])

/-- Opening the paths and ending the run (44_assembler_syntax.md R154, R156). That both paths open in
one step, that a failed opening ends the run in that same step with nothing written, and that ending is
one step are the model's choice (logs 17, 20). -/
def Obligations.RunOpensAndEnds : Prop :=
  ∀ s : State, s.presented = [] →
    (∀ lines, s.host.phase = .closed → s.host.input = some lines →
      (s.host.command.outputPath = none ∨ s.host.outputOpens = true) →
      step s = .next { s with host := { s.host with phase := .reading lines } }) ∧
    (s.host.phase = .closed → (s.host.input = none ∨
        (s.host.command.outputPath ≠ none ∧ s.host.outputOpens = false)) →
      step s = .next { s with host := { s.host with phase := .ended .ioFailed } }) ∧
    (s.host.phase = .reading [] → s.host.diagnostics = [] →
      step s = .next { s with host := { s.host with phase := .ended .ok } }) ∧
    (s.host.phase = .reading [] → s.host.diagnostics ≠ [] →
      step s = .next { s with host := { s.host with phase := .ended .lineFailed } }) ∧
    (ExitStatus.ok.code = 0 ∧ ExitStatus.lineFailed.code = 1 ∧ ExitStatus.ioFailed.code = 2)

/-- A consumer's bytes of a word hold every bit of it, in the byte order it names (20_memory.md R41; no
byte order is the block's, log 13). -/
def Obligations.WordBytesHoldTheWord : Prop :=
  ∀ w : Word, wordBytes .littleEndian w = (wordBytes .bigEndian w).reverse ∧
    (wordBytes .bigEndian w).foldl (fun n x => 256 * n + x.toNat) 0 = w.toNat
end

