-- ==== Sys2Proof/Laws/Values.lean ====
section
/-! SUPPORT. The integer notation in terms of Lean's bit vectors. -/

namespace Sys2Proof.Machine

theorem lowBits_lt (v : Int) (w : Nat) : lowBits v w < 2 ^ w := by
  have hpos : (0 : Int) < ((2 ^ w : Nat) : Int) := by positivity
  have h1 := Int.emod_nonneg v hpos.ne'
  have h2 := Int.emod_lt_of_pos v hpos
  unfold lowBits
  omega

theorem lowBits_natCast (n w : Nat) : lowBits (n : Int) w = n % 2 ^ w := by
  unfold lowBits
  rw [← Int.natCast_emod]
  exact Int.toNat_natCast _

theorem lowBits_of_fits {v : Int} {w : Nat} (h0 : 0 ≤ v) (h1 : v < ((2 ^ w : Nat) : Int)) :
    (lowBits v w : Int) = v := by
  unfold lowBits
  rw [Int.emod_eq_of_lt h0 h1, Int.toNat_of_nonneg h0]

/-- A port is read as the two's-complement value of its bits (10_state.md R27). -/
theorem sval_eq_toInt (p : Port) : sval p = p.toInt := by
  have h := p.isLt
  unfold sval signExt
  rw [lowBits_natCast, Nat.mod_eq_of_lt h, BitVec.toInt_eq_toNat_cond]

theorem sval_bounds (p : Port) : -2147483648 ≤ sval p ∧ sval p ≤ 2147483647 := by
  rw [sval_eq_toInt]
  have h := p.isLt
  rw [BitVec.toInt_eq_toNat_cond]
  split <;> omega

/-- The low bits of a port's value are the low bits of the port, up to the port's width. -/
theorem lowBits_toInt (p : Port) {w : Nat} (hw : w ≤ 32) : lowBits p.toInt w = p.toNat % 2 ^ w := by
  have hd : ((2 ^ w : Nat) : Int) ∣ ((2 ^ 32 : Nat) : Int) := by
    exact_mod_cast Nat.pow_dvd_pow 2 hw
  have hm : p.toInt % ((2 ^ w : Nat) : Int) = (p.toNat : Int) % ((2 ^ w : Nat) : Int) := by
    rw [BitVec.toInt_eq_toNat_bmod, ← Int.emod_emod_of_dvd _ hd, Int.bmod_emod,
      Int.emod_emod_of_dvd _ hd]
  unfold lowBits
  rw [hm, ← Int.natCast_emod]
  exact Int.toNat_natCast _

/-- A field of `w` low bits of a port. -/
theorem lowBits_toInt_extract (p : Port) {w : Nat} (hw : w ≤ 32) :
    lowBits p.toInt w = (p.extractLsb' 0 w).toNat := by
  rw [lowBits_toInt p hw]
  simp

/-- Concatenation of bit vectors as the concatenation of 00_scope.md R8. -/
theorem toNat_append_add {m n : Nat} (x : BitVec m) (y : BitVec n) :
    (x ++ y).toNat = x.toNat * 2 ^ n + y.toNat := by
  rw [BitVec.toNat_append, ← Nat.shiftLeft_add_eq_or_of_lt y.isLt, Nat.shiftLeft_eq]

end Sys2Proof.Machine
end

