-- ==== Sys2Proof/Laws/Operands.lean ====
section
/-! SUPPORT. What each part of the field encoder answers, said once; later proofs cite these. -/

namespace Sys2Proof.Machine

theorem pack_truncate (v : Int) (w : Nat) : pack .truncate v w = some (lowBits v w) := by
  simp [pack]

theorem pack_of_fits {policy : OverflowPolicy} {v : Int} {w : Nat} (h : fits v w = true) :
    pack policy v w = some (lowBits v w) := by
  simp [pack, h]

theorem pack_eq_none_iff {policy : OverflowPolicy} {v : Int} {w : Nat} :
    pack policy v w = none ↔ policy = .reject ∧ fits v w = false := by
  unfold pack
  split <;> simp_all

/-- A natural number below `2^w` is its own field. -/
theorem pack_natCast {policy : OverflowPolicy} {n w : Nat} (h : n < 2 ^ w) :
    pack policy (n : Int) w = some n := by
  have hf : fits (n : Int) w = true := by
    have h0 : (0 : Int) ≤ ((2 ^ (w - 1) : Nat) : Int) := by positivity
    have h1 : (n : Int) < ((2 ^ w : Nat) : Int) := by exact_mod_cast h
    simp only [fits, decide_eq_true_eq]
    omega
  rw [pack_of_fits hf, lowBits_natCast, Nat.mod_eq_of_lt h]

/-- A field of the table always fits (30_encoding.md R71). -/
theorem pack_bits (policy : OverflowPolicy) {w : Nat} (x : BitVec w) :
    pack policy (x.toNat : Int) w = some x.toNat := pack_natCast x.isLt

theorem checkReg_cases (policy : OverflowPolicy) (r : Int) :
    (checkReg policy r = some () ∧ (policy = .reject → 0 ≤ r ∧ r ≤ 31)) ∨
      (checkReg policy r = none ∧ policy = .reject ∧ ¬(0 ≤ r ∧ r ≤ 31)) := by
  unfold checkReg
  split
  · exact .inr ⟨rfl, ‹_›⟩
  · exact .inl ⟨rfl, by tauto⟩

theorem checkImm_cases (policy : OverflowPolicy) (v lo hi : Int) :
    (checkImm policy v lo hi = some () ∧ (policy = .reject → lo ≤ v ∧ v ≤ hi)) ∨
      (checkImm policy v lo hi = none ∧ policy = .reject ∧ ¬(lo ≤ v ∧ v ≤ hi)) := by
  unfold checkImm
  split
  · exact .inr ⟨rfl, ‹_›⟩
  · exact .inl ⟨rfl, by tauto⟩

theorem regInRange_iff (r : Port) : regInRange r = true ↔ 0 ≤ sval r ∧ sval r ≤ 31 := by
  simp [regInRange, sval_eq_toInt]

theorem imm12InRange_iff (v : Port) : imm12InRange v = true ↔ -2048 ≤ sval v ∧ sval v ≤ 2047 := by
  simp [imm12InRange, sval_eq_toInt]

theorem imm13InRange_iff (v : Port) : imm13InRange v = true ↔ -4096 ≤ sval v ∧ sval v ≤ 4095 := by
  simp [imm13InRange, sval_eq_toInt]

/-- A register field that has passed its check is the low five bits (30_encoding.md R70). -/
theorem packReg_sval {policy : OverflowPolicy} {r : Port}
    (h : policy = .reject → 0 ≤ sval r ∧ sval r ≤ 31) :
    packReg policy (sval r) = some (regBits r).toNat := by
  rw [packReg, regBits, ← lowBits_toInt_extract r (by omega), ← sval_eq_toInt]
  cases policy with
  | truncate => exact pack_truncate _ _
  | reject =>
    obtain ⟨h0, h1⟩ := h rfl
    apply pack_of_fits
    simp only [fits, decide_eq_true_eq]
    norm_num
    omega

/-- An I immediate that has passed its check is its low twelve bits (30_encoding.md R64). -/
theorem packImmI_sval {policy : OverflowPolicy} {v : Port}
    (h : policy = .reject → -2048 ≤ sval v ∧ sval v ≤ 2047) :
    packImmI policy (sval v) = some (v.extractLsb' 0 12).toNat := by
  rw [packImmI, ← lowBits_toInt_extract v (by omega), ← sval_eq_toInt]
  cases policy with
  | truncate => exact pack_truncate _ _
  | reject =>
    obtain ⟨h0, h1⟩ := h rfl
    apply pack_of_fits
    simp only [fits, decide_eq_true_eq]
    norm_num
    omega

/-- `band` of a port is the AND of its bits with the mask (30_encoding.md R60). -/
theorem band_sval (p : Port) (m : Nat) : band (sval p) m = p.toNat &&& m := by
  rw [band, sval_eq_toInt, lowBits_toInt p (by omega), Nat.mod_eq_of_lt p.isLt]

/-- S imm_lo is the low five bits (30_encoding.md R65). -/
theorem immLoS_sval (policy : OverflowPolicy) (v : Port) :
    immLoS policy (sval v) = some (immLoBitsS v).toNat := by
  have h : band (sval v) 0b11111 = (immLoBitsS v).toNat := by
    rw [band_sval, immLoBitsS, BitVec.extractLsb'_toNat, Nat.shiftRight_zero]
    exact Nat.and_two_pow_sub_one_eq_mod v.toNat 5
  rw [immLoS, h]
  exact pack_bits policy (immLoBitsS v)

/-- The port the magnitude shift shifts holds the magnitude. -/
theorem toNat_splitSource_compat (v : Port) :
    ((splitSource .compat v).toNat : Int) = |sval v| := by
  have h := v.isLt
  rw [sval_eq_toInt, splitSource]
  split
  · rename_i hm
    have h2 : 2 ^ 31 ≤ v.toNat := by
      simpa [BitVec.msb_eq_decide] using hm
    rw [BitVec.toNat_neg, BitVec.toInt_eq_toNat_cond]
    split
    · omega
    · rw [abs_of_neg (by omega)]
      omega
  · rename_i hm
    have h2 : v.toNat < 2 ^ 31 := by
      simpa [BitVec.msb_eq_decide] using hm
    rw [BitVec.toInt_eq_toNat_cond, if_pos (by omega), abs_of_nonneg (by omega)]

theorem arsCompat_eq_abs (v : Int) (n : Nat) : arsCompat v n = floorShift |v| n := by
  unfold arsCompat
  split
  · rw [abs_of_nonneg ‹_›]
  · rw [abs_of_neg (by omega)]

/-- The magnitude shift of a port's value. -/
theorem arsCompat_sval (v : Port) (n : Nat) :
    arsCompat (sval v) n = (((splitSource .compat v).toNat / 2 ^ n : Nat) : Int) := by
  rw [arsCompat_eq_abs, ← toNat_splitSource_compat, floorShift]
  push_cast
  rfl

/-- The true shift of a port's value, read at its low bits. -/
theorem lowBits_floorShift_sval (v : Port) (n w : Nat) (h : n + w ≤ 32) :
    lowBits (floorShift (sval v) n) w = (v.extractLsb' n w).toNat := by
  rw [BitVec.extractLsb'_toNat, Nat.shiftRight_eq_div_pow, sval_eq_toInt]
  have hl := lowBits_toInt v h
  have h1 : (lowBits v.toInt (n + w) : Int) = v.toInt % ((2 ^ (n + w) : Nat) : Int) := by
    unfold lowBits
    exact Int.toNat_of_nonneg (Int.emod_nonneg _ (by positivity))
  rw [hl] at h1
  have key : (v.toInt / ((2 ^ n : Nat) : Int)) % ((2 ^ w : Nat) : Int) =
      (((v.toNat / 2 ^ n) % 2 ^ w : Nat) : Int) := by
    have e : (v.toInt / ((2 ^ n : Nat) : Int)) % ((2 ^ w : Nat) : Int) =
        (v.toInt % ((2 ^ (n + w) : Nat) : Int)) / ((2 ^ n : Nat) : Int) := by
      rw [pow_add]
      push_cast
      have ha : (0 : Int) < 2 ^ n := by positivity
      rw [Int.emod_def (v.toInt) (2 ^ n * 2 ^ w), mul_assoc, Int.sub_mul_ediv_left _ _ ha.ne',
        Int.emod_def, Int.ediv_ediv_of_nonneg ha.le]
    rw [e, ← h1]
    norm_cast
    rw [pow_add, Nat.mod_mul_right_div_self]
  unfold lowBits floorShift
  rw [key]
  exact Int.toNat_natCast _

/-- S imm_hi of an immediate that has passed its check (30_encoding.md R66). -/
theorem immHiS_sval {policy : OverflowPolicy} (mode : ImmSplitMode) {v : Port}
    (h : policy = .reject → -2048 ≤ sval v ∧ sval v ≤ 2047) :
    immHiS policy mode (sval v) = some (immHiBitsS mode v).toNat := by
  have hv : policy = .reject → fits (ars mode (sval v) 5) 7 = true := by
    intro hp
    obtain ⟨h0, h1⟩ := h hp
    simp only [fits, decide_eq_true_eq]
    cases mode <;> simp only [ars, arsCompat, arsTwos, floorShift] <;> norm_num
    · split <;> omega
    · omega
  have hl : lowBits (ars mode (sval v) 5) 7 = (immHiBitsS mode v).toNat := by
    cases mode with
    | twos => exact lowBits_floorShift_sval v 5 7 (by omega)
    | compat =>
      simp only [ars]
      rw [arsCompat_sval, lowBits_natCast, immHiBitsS, BitVec.extractLsb'_toNat,
        Nat.shiftRight_eq_div_pow]
  rw [immHiS, ← hl]
  cases policy with
  | truncate => exact pack_truncate _ _
  | reject => exact pack_of_fits (hv rfl)

/-- SB imm_lo bit by bit. -/
theorem immLo_bits (v : Port) :
    ((v &&& 30#32) ||| ((v &&& 2048#32) >>> 11)) = (immLoBitsSB v).setWidth 32 := by
  have hlo : ∀ i, (immLoBitsSB v).getLsbD i =
      if i < 1 then (v.extractLsb' 11 1).getLsbD i else (v.extractLsb' 1 4).getLsbD (i - 1) :=
    fun i => BitVec.getLsbD_append
  apply BitVec.eq_of_getLsbD_eq
  intro i hi
  rw [BitVec.getLsbD_setWidth, hlo]
  interval_cases i <;> simp

/-- The value of SB imm_lo is `{imm[4:1], imm[11]}` (30_encoding.md R67). -/
theorem immLoValueSB_sval (v : Port) : immLoValueSB (sval v) = (immLoBitsSB v).toNat := by
  have h := congrArg BitVec.toNat (immLo_bits v)
  rw [BitVec.toNat_or, BitVec.toNat_ushiftRight, BitVec.toNat_and, BitVec.toNat_and,
    BitVec.toNat_setWidth, Nat.mod_eq_of_lt (by have := (immLoBitsSB v).isLt; omega)] at h
  rw [← h, immLoValueSB, band_sval, band_sval, arsCompat, if_pos (by positivity), floorShift,
    Nat.shiftRight_eq_div_pow]
  norm_cast

/-- The masked shift of `compat` mode, bit by bit (30_encoding.md R68). -/
theorem immHi_bits (m : Port) :
    ((m >>> 5) &&& 191#32) % 128#32 = ((0#1 ++ m.extractLsb' 5 6 : BitVec 7)).setWidth 32 := by
  have e : ((m >>> 5) &&& 191#32) % 128#32 = ((m >>> 5) &&& 191#32) &&& 127#32 := by
    apply BitVec.eq_of_toNat_eq
    rw [BitVec.toNat_umod, BitVec.toNat_and _ 127#32]
    exact (Nat.and_two_pow_sub_one_eq_mod _ 7).symm
  have hlo : ∀ i, (0#1 ++ m.extractLsb' 5 6 : BitVec 7).getLsbD i =
      if i < 6 then (m.extractLsb' 5 6).getLsbD i else (0#1).getLsbD (i - 6) :=
    fun i => BitVec.getLsbD_append
  rw [e]
  apply BitVec.eq_of_getLsbD_eq
  intro i hi
  rw [BitVec.getLsbD_setWidth, hlo]
  interval_cases i <;> simp

theorem lowBits_immHiValueSB_compat (v : Port) :
    immHiValueSB .compat (sval v) % 128 = (immHiBitsSB .compat v).toNat := by
  have h := congrArg BitVec.toNat (immHi_bits (splitSource .compat v))
  rw [BitVec.toNat_umod, BitVec.toNat_and, BitVec.toNat_ushiftRight,
    BitVec.toNat_setWidth] at h
  rw [immHiBitsSB, immHiValueSB, arsCompat_sval, band, lowBits_natCast]
  have hl := (splitSource .compat v).isLt
  have hr := (0#1 ++ (splitSource .compat v).extractLsb' 5 6).isLt
  rw [Nat.mod_eq_of_lt (a := _ / _) (by omega), ← Nat.shiftRight_eq_div_pow]
  rw [Nat.mod_eq_of_lt (a := (0#1 ++ (splitSource .compat v).extractLsb' 5 6).toNat) (by omega)] at h
  exact h


theorem immHi_bits_small (m : Port) (h : m.toNat < 4096) :
    (m.toNat / 32 &&& 191) < 128 := by
  refine Nat.lt_of_le_of_lt Nat.and_le_left ?_
  omega

theorem immHiValueSB_twos (v : Port) :
    immHiValueSB .twos (sval v) = (immHiBitsSB .twos v).toNat := by
  rw [immHiValueSB, bitOf, slice, lowBits_floorShift_sval v 12 1 (by omega),
    lowBits_floorShift_sval v 5 6 (by omega), immHiBitsSB, toNat_append_add]
  omega

/-- SB imm_lo never overflows (30_encoding.md R67). -/
theorem immLoSB_sval (policy : OverflowPolicy) (v : Port) :
    immLoSB policy (sval v) = some (immLoBitsSB v).toNat := by
  rw [immLoSB, immLoValueSB_sval]
  exact pack_bits policy _

/-- Everything SB imm_hi can be: the bits, or in `compat` mode and under `reject` the overflow of a
magnitude whose bit 12 is set (30_encoding.md R68, R69). -/
theorem immHiSB_sval {policy : OverflowPolicy} (mode : ImmSplitMode) {v : Port}
    (h : policy = .reject → -4096 ≤ sval v ∧ sval v ≤ 4095) :
    (immHiSB policy mode (sval v) = some (immHiBitsSB mode v).toNat ∧
        ¬(policy = .reject ∧ mode = .compat ∧ sval v = -4096)) ∨
      (immHiSB policy mode (sval v) = none ∧ policy = .reject ∧ mode = .compat ∧
        sval v = -4096) := by
  cases mode with
  | twos =>
    refine .inl ⟨?_, by simp⟩
    rw [immHiSB, immHiValueSB_twos]
    exact pack_bits policy _
  | compat =>
    cases policy with
    | truncate =>
      refine .inl ⟨?_, by simp⟩
      rw [immHiSB, pack_truncate, lowBits_natCast, ← lowBits_immHiValueSB_compat]
      rfl
    | reject =>
      obtain ⟨h0, h1⟩ := h rfl
      by_cases hm : sval v = -4096
      · refine .inr ⟨?_, rfl, rfl, hm⟩
        rw [immHiSB, hm]
        decide
      · refine .inl ⟨?_, by simp [hm]⟩
        have ha := toNat_splitSource_compat v
        have hb : |sval v| < 4096 := abs_lt.mpr ⟨by omega, by omega⟩
        have hs : (splitSource .compat v).toNat < 4096 := by omega
        have hv : immHiValueSB .compat (sval v) < 2 ^ 7 := by
          rw [immHiValueSB, arsCompat_sval, band, lowBits_natCast, Nat.mod_eq_of_lt (by omega)]
          exact immHi_bits_small _ hs
        rw [immHiSB, pack_natCast hv, ← lowBits_immHiValueSB_compat,
          Nat.mod_eq_of_lt (b := 128) hv]

end Sys2Proof.Machine
end

