-- ==== Sys2Proof/Laws/Assembler.lean ====
section
/-! SUPPORT. What the format assembler and `Encode` answer, said once: the bits of
30_encoding.md R51 to R54, or FieldOverflow. -/

namespace Sys2Proof.Machine

/-- Six fields as one word (30_encoding.md R51, R53, R54). -/
theorem wordOfFields_six (x : BitVec 7) (a b : BitVec 5) (f : BitVec 3) (c : BitVec 5)
    (o : BitVec 7) :
    wordOfFields [(x.toNat, 7), (a.toNat, 5), (b.toNat, 5), (f.toNat, 3), (c.toNat, 5),
      (o.toNat, 7)] = (x ++ a ++ b ++ f ++ c ++ o : BitVec (7 + 5 + 5 + 3 + 5 + 7)) := by
  have h : (x ++ a ++ b ++ f ++ c ++ o).toNat = concatFields [(x.toNat, 7), (a.toNat, 5),
      (b.toNat, 5), (f.toNat, 3), (c.toNat, 5), (o.toNat, 7)] := by
    rw [toNat_append_add, toNat_append_add, toNat_append_add, toNat_append_add, toNat_append_add]
    simp [concatFields]
  rw [wordOfFields, ← h]
  exact BitVec.ofNat_toNat ..

/-- Five fields as one word (30_encoding.md R52). -/
theorem wordOfFields_five (x : BitVec 12) (b : BitVec 5) (f : BitVec 3) (c : BitVec 5)
    (o : BitVec 7) :
    wordOfFields [(x.toNat, 12), (b.toNat, 5), (f.toNat, 3), (c.toNat, 5), (o.toNat, 7)] =
      (x ++ b ++ f ++ c ++ o : BitVec (12 + 5 + 3 + 5 + 7)) := by
  have h : (x ++ b ++ f ++ c ++ o).toNat = concatFields [(x.toNat, 12), (b.toNat, 5),
      (f.toNat, 3), (c.toNat, 5), (o.toNat, 7)] := by
    rw [toNat_append_add, toNat_append_add, toNat_append_add, toNat_append_add]
    simp [concatFields]
  rw [wordOfFields, ← h]
  exact BitVec.ofNat_toNat ..

/-- Everything `assembleR` can answer (40_r_format.md R100). -/
theorem assembleR_cases (policy : OverflowPolicy) (d : Descriptor) (f7 : BitVec 7)
    (a b c : Port) :
    ((policy = .reject → regInRange a = true ∧ regInRange b = true ∧ regInRange c = true) ∧
      assembleR policy d f7 (sval a) (sval b) (sval c) =
        some (f7 ++ regBits c ++ regBits b ++ d.funct3 ++ regBits a ++ d.opcode)) ∨
    ((policy = .reject ∧ ¬(regInRange a = true ∧ regInRange b = true ∧ regInRange c = true)) ∧
      assembleR policy d f7 (sval a) (sval b) (sval c) = none) := by
  simp only [regInRange_iff]
  obtain ⟨ha, pa⟩ | ⟨ha, pa, qa⟩ := checkReg_cases policy (sval a)
  · obtain ⟨hb, pb⟩ | ⟨hb, pb, qb⟩ := checkReg_cases policy (sval b)
    · obtain ⟨hc, pc⟩ | ⟨hc, pc, qc⟩ := checkReg_cases policy (sval c)
      · refine .inl ⟨fun h => ⟨pa h, pb h, pc h⟩, ?_⟩
        simp only [assembleR, ha, hb, hc, packReg_sval pa, packReg_sval pb, packReg_sval pc,
          pack_bits, Option.bind_eq_bind, Option.bind_some]
        exact congrArg some (wordOfFields_six ..)
      · exact .inr ⟨⟨pc, by tauto⟩, by simp [assembleR, ha, hb, hc]⟩
    · exact .inr ⟨⟨pb, by tauto⟩, by simp [assembleR, ha, hb]⟩
  · exact .inr ⟨⟨pa, by tauto⟩, by simp [assembleR, ha]⟩

/-- Everything `assembleI` can answer (41_i_format.md R110). -/
theorem assembleI_cases (policy : OverflowPolicy) (d : Descriptor) (a b c : Port) :
    ((policy = .reject → regInRange a = true ∧ regInRange b = true ∧ imm12InRange c = true) ∧
      assembleI policy d (sval a) (sval b) (sval c) =
        some (c.extractLsb' 0 12 ++ regBits b ++ d.funct3 ++ regBits a ++ d.opcode)) ∨
    ((policy = .reject ∧ ¬(regInRange a = true ∧ regInRange b = true ∧ imm12InRange c = true)) ∧
      assembleI policy d (sval a) (sval b) (sval c) = none) := by
  simp only [regInRange_iff, imm12InRange_iff]
  obtain ⟨ha, pa⟩ | ⟨ha, pa, qa⟩ := checkReg_cases policy (sval a)
  · obtain ⟨hb, pb⟩ | ⟨hb, pb, qb⟩ := checkReg_cases policy (sval b)
    · obtain ⟨hc, pc⟩ | ⟨hc, pc, qc⟩ := checkImm_cases policy (sval c) (-2048) 2047
      · refine .inl ⟨fun h => ⟨pa h, pb h, pc h⟩, ?_⟩
        simp only [assembleI, ha, hb, hc, packReg_sval pa, packReg_sval pb, packImmI_sval pc,
          pack_bits, Option.bind_eq_bind, Option.bind_some]
        exact congrArg some (wordOfFields_five ..)
      · exact .inr ⟨⟨pc, by tauto⟩, by simp [assembleI, ha, hb, hc]⟩
    · exact .inr ⟨⟨pb, by tauto⟩, by simp [assembleI, ha, hb]⟩
  · exact .inr ⟨⟨pa, by tauto⟩, by simp [assembleI, ha]⟩

/-- Everything `assembleS` can answer (42_s_format.md R120). -/
theorem assembleS_cases (policy : OverflowPolicy) (mode : ImmSplitMode) (d : Descriptor)
    (a b c : Port) :
    ((policy = .reject → regInRange a = true ∧ regInRange b = true ∧ imm12InRange c = true) ∧
      assembleS policy mode d (sval a) (sval b) (sval c) =
        some (immHiBitsS mode c ++ regBits b ++ regBits a ++ d.funct3 ++ immLoBitsS c ++
          d.opcode)) ∨
    ((policy = .reject ∧ ¬(regInRange a = true ∧ regInRange b = true ∧ imm12InRange c = true)) ∧
      assembleS policy mode d (sval a) (sval b) (sval c) = none) := by
  simp only [regInRange_iff, imm12InRange_iff]
  obtain ⟨ha, pa⟩ | ⟨ha, pa, qa⟩ := checkReg_cases policy (sval a)
  · obtain ⟨hb, pb⟩ | ⟨hb, pb, qb⟩ := checkReg_cases policy (sval b)
    · obtain ⟨hc, pc⟩ | ⟨hc, pc, qc⟩ := checkImm_cases policy (sval c) (-2048) 2047
      · refine .inl ⟨fun h => ⟨pa h, pb h, pc h⟩, ?_⟩
        simp only [assembleS, ha, hb, hc, packReg_sval pa, packReg_sval pb, immHiS_sval mode pc,
          immLoS_sval, pack_bits, Option.bind_eq_bind, Option.bind_some]
        exact congrArg some (wordOfFields_six ..)
      · exact .inr ⟨⟨pc, by tauto⟩, by simp [assembleS, ha, hb, hc]⟩
    · exact .inr ⟨⟨pb, by tauto⟩, by simp [assembleS, ha, hb]⟩
  · exact .inr ⟨⟨pa, by tauto⟩, by simp [assembleS, ha]⟩

/-- Everything `assembleSB` can answer (43_sb_format.md R130). -/
theorem assembleSB_cases (policy : OverflowPolicy) (mode : ImmSplitMode) (d : Descriptor)
    (a b c : Port) :
    ((policy = .reject → regInRange a = true ∧ regInRange b = true ∧ imm13InRange c = true ∧
        ¬(mode = .compat ∧ c.toInt = -4096)) ∧
      assembleSB policy mode d (sval a) (sval b) (sval c) =
        some (immHiBitsSB mode c ++ regBits b ++ regBits a ++ d.funct3 ++ immLoBitsSB c ++
          d.opcode)) ∨
    ((policy = .reject ∧ ¬(regInRange a = true ∧ regInRange b = true ∧ imm13InRange c = true ∧
        ¬(mode = .compat ∧ c.toInt = -4096))) ∧
      assembleSB policy mode d (sval a) (sval b) (sval c) = none) := by
  simp only [regInRange_iff, imm13InRange_iff, ← sval_eq_toInt]
  obtain ⟨ha, pa⟩ | ⟨ha, pa, qa⟩ := checkReg_cases policy (sval a)
  · obtain ⟨hb, pb⟩ | ⟨hb, pb, qb⟩ := checkReg_cases policy (sval b)
    · obtain ⟨hc, pc⟩ | ⟨hc, pc, qc⟩ := checkImm_cases policy (sval c) (-4096) 4095
      · obtain ⟨hh, ph⟩ | ⟨hh, ph, qh, rh⟩ := immHiSB_sval mode pc
        · refine .inl ⟨fun h => ⟨pa h, pb h, pc h, by tauto⟩, ?_⟩
          simp only [assembleSB, ha, hb, hc, packReg_sval pa, packReg_sval pb, hh,
            immLoSB_sval, pack_bits, Option.bind_eq_bind, Option.bind_some]
          exact congrArg some (wordOfFields_six ..)
        · exact .inr ⟨⟨ph, by tauto⟩, by simp [assembleSB, ha, hb, hc, hh]⟩
      · exact .inr ⟨⟨pc, by tauto⟩, by simp [assembleSB, ha, hb, hc]⟩
    · exact .inr ⟨⟨pb, by tauto⟩, by simp [assembleSB, ha, hb]⟩
  · exact .inr ⟨⟨pa, by tauto⟩, by simp [assembleSB, ha]⟩

end Sys2Proof.Machine
end

