-- ==== Sys2Proof/Laws/Decode.lean ====
section
/-! SUPPORT. The multiplexer, the requests on the ports, and `Encode` of a request. -/

namespace Sys2Proof

@[simp] theorem Mnemonic.ofSelector_selector (m : Mnemonic) :
    Mnemonic.ofSelector m.selector = some m := by cases m <;> rfl

theorem Mnemonic.selector_ne_seven (m : Mnemonic) : m.selector ≠ 7 := by cases m <;> decide

theorem Mnemonic.selector_of_ofSelector {sel : BitVec 3} {m : Mnemonic}
    (h : Mnemonic.ofSelector sel = some m) : m.selector = sel := by
  revert h
  revert m
  revert sel
  decide

theorem Mnemonic.ofSelector_eq_none_iff {sel : BitVec 3} :
    Mnemonic.ofSelector sel = none ↔ sel = 7 := by
  revert sel
  decide

@[simp] theorem Instr.mnemonic_of (m : Mnemonic) (a b c : Port) :
    (Instr.of m a b c).mnemonic = m := by cases m <;> rfl

@[simp] theorem Instr.operands_of (m : Mnemonic) (a b c : Port) :
    (Instr.of m a b c).operands = (a, b, c) := by cases m <;> rfl

@[simp] theorem Instr.of_mnemonic_operands (i : Instr) :
    Instr.of i.mnemonic i.operands.1 i.operands.2.1 i.operands.2.2 = i := by cases i <;> rfl

namespace Machine

/-- `Encode` of a row's selector is the row's outputs (30_encoding.md R77). -/
theorem encodeBlock_selector (build : Build) (m : Mnemonic) (a b c : Port) :
    encodeBlock build ⟨m.selector, a, b, c⟩ =
      descriptorOutputs (build.table.row m)
        (assemble build (build.table.row m) (sval a) (sval b) (sval c)) := by
  simp [encodeBlock]

/-- `Encode` of the unassigned selector (30_encoding.md R75). -/
theorem encodeBlock_unassigned (build : Build) (a b c : Port) :
    encodeBlock build ⟨7, a, b, c⟩ = ⟨0, 1, 0, 3⟩ := rfl

/-- Everything `Encode` can answer: the unassigned selector, FieldOverflow or a word. -/
theorem encodeBlock_cases (build : Build) (p : Ports) :
    (p.mnSel = 7 ∧ encodeBlock build p = unknownOutputs) ∨
    (∃ m, Mnemonic.ofSelector p.mnSel = some m ∧
      assemble build (build.table.row m) (sval p.opA) (sval p.opB) (sval p.opC) = none ∧
      encodeBlock build p = raiseError .fieldOverflow (fmtCode (build.table.row m).layout)
        (shapeCode (build.table.row m).shape)) ∨
    (∃ m w, Mnemonic.ofSelector p.mnSel = some m ∧
      assemble build (build.table.row m) (sval p.opA) (sval p.opB) (sval p.opC) = some w ∧
      encodeBlock build p = ⟨w, errNone, fmtCode (build.table.row m).layout,
        shapeCode (build.table.row m).shape⟩) := by
  unfold encodeBlock
  cases hm : Mnemonic.ofSelector p.mnSel with
  | none => exact .inl ⟨Mnemonic.ofSelector_eq_none_iff.mp hm, rfl⟩
  | some m =>
    cases ha : assemble build (build.table.row m) (sval p.opA) (sval p.opB) (sval p.opC) with
    | none => exact .inr (.inl ⟨m, rfl, ha, by simp [descriptorOutputs, ha]⟩)
    | some w => exact .inr (.inr ⟨m, w, rfl, ha, by simp [descriptorOutputs, ha]⟩)

end Machine

end Sys2Proof
end

