-- ==== Sys2Proof/Laws/State.lean ====
section
/-! SUPPORT. One lemma per field per update of the state, so that no later proof unfolds a record
update. -/

namespace Sys2Proof.Machine

@[simp] theorem State.drive_build (s : State) (p : Ports) : (s.drive p).build = s.build := rfl
@[simp] theorem State.drive_ports (s : State) (p : Ports) : (s.drive p).ports = p := rfl
@[simp] theorem State.drive_outputs (s : State) (p : Ports) :
    (s.drive p).outputs = encodeBlock s.build p := rfl
@[simp] theorem State.drive_presented (s : State) (p : Ports) :
    (s.drive p).presented = s.presented := rfl
@[simp] theorem State.drive_host (s : State) (p : Ports) : (s.drive p).host = s.host := rfl

@[simp] theorem State.request_build (s : State) (m : Mnemonic) (a b c : Port) :
    (s.request m a b c).build = s.build := rfl
@[simp] theorem State.request_ports (s : State) (m : Mnemonic) (a b c : Port) :
    (s.request m a b c).ports = ⟨m.selector, a, b, c⟩ := rfl
@[simp] theorem State.request_outputs (s : State) (m : Mnemonic) (a b c : Port) :
    (s.request m a b c).outputs = encodeBlock s.build ⟨m.selector, a, b, c⟩ := rfl
@[simp] theorem State.request_presented (s : State) (m : Mnemonic) (a b c : Port) :
    (s.request m a b c).presented = s.presented := rfl
@[simp] theorem State.request_host (s : State) (m : Mnemonic) (a b c : Port) :
    (s.request m a b c).host = s.host := rfl

@[simp] theorem State.takeLine_build (s : State) (r : List Text) :
    (s.takeLine r).build = s.build := rfl
@[simp] theorem State.takeLine_ports (s : State) (r : List Text) :
    (s.takeLine r).ports = s.ports := rfl
@[simp] theorem State.takeLine_outputs (s : State) (r : List Text) :
    (s.takeLine r).outputs = s.outputs := rfl
@[simp] theorem State.takeLine_presented (s : State) (r : List Text) :
    (s.takeLine r).presented = s.presented := rfl
@[simp] theorem State.takeLine_host (s : State) (r : List Text) :
    (s.takeLine r).host = { s.host with phase := .reading r, lineNo := s.host.lineNo + 1 } := rfl

@[simp] theorem State.writeLine_build (s : State) (t : Text) :
    (s.writeLine t).build = s.build := rfl
@[simp] theorem State.writeLine_ports (s : State) (t : Text) :
    (s.writeLine t).ports = s.ports := rfl
@[simp] theorem State.writeLine_outputs (s : State) (t : Text) :
    (s.writeLine t).outputs = s.outputs := rfl
@[simp] theorem State.writeLine_presented (s : State) (t : Text) :
    (s.writeLine t).presented = s.presented := rfl
@[simp] theorem State.writeLine_host (s : State) (t : Text) :
    (s.writeLine t).host = { s.host with output := s.host.output ++ [t] } := rfl

@[simp] theorem State.diagnose_build (s : State) (e : ErrorKind) :
    (s.diagnose e).build = s.build := rfl
@[simp] theorem State.diagnose_ports (s : State) (e : ErrorKind) :
    (s.diagnose e).ports = s.ports := rfl
@[simp] theorem State.diagnose_outputs (s : State) (e : ErrorKind) :
    (s.diagnose e).outputs = s.outputs := rfl
@[simp] theorem State.diagnose_presented (s : State) (e : ErrorKind) :
    (s.diagnose e).presented = s.presented := rfl
@[simp] theorem State.diagnose_host (s : State) (e : ErrorKind) :
    (s.diagnose e).host =
      { s.host with diagnostics := s.host.diagnostics ++ [(s.host.lineNo, e)] } := rfl

@[simp] theorem State.endRun_build (s : State) (x : ExitStatus) :
    (s.endRun x).build = s.build := rfl
@[simp] theorem State.endRun_ports (s : State) (x : ExitStatus) :
    (s.endRun x).ports = s.ports := rfl
@[simp] theorem State.endRun_outputs (s : State) (x : ExitStatus) :
    (s.endRun x).outputs = s.outputs := rfl
@[simp] theorem State.endRun_presented (s : State) (x : ExitStatus) :
    (s.endRun x).presented = s.presented := rfl
@[simp] theorem State.endRun_host (s : State) (x : ExitStatus) :
    (s.endRun x).host = { s.host with phase := .ended x } := rfl

/-- Everything that recording a result can do. -/
theorem State.recordResult_cases (s : State) :
    (s.outputs.err = errCode .fieldOverflow ∧ s.recordResult = s.diagnose .fieldOverflow) ∨
      (s.outputs.err ≠ errCode .fieldOverflow ∧
        s.recordResult = s.writeLine (bitsText s.outputs.word)) := by
  unfold State.recordResult
  split
  · exact .inl ⟨‹_›, rfl⟩
  · exact .inr ⟨‹_›, rfl⟩

@[simp] theorem State.recordResult_build (s : State) : s.recordResult.build = s.build := by
  obtain ⟨-, h⟩ | ⟨-, h⟩ := s.recordResult_cases <;> rw [h] <;> rfl
@[simp] theorem State.recordResult_ports (s : State) : s.recordResult.ports = s.ports := by
  obtain ⟨-, h⟩ | ⟨-, h⟩ := s.recordResult_cases <;> rw [h] <;> rfl
@[simp] theorem State.recordResult_outputs (s : State) : s.recordResult.outputs = s.outputs := by
  obtain ⟨-, h⟩ | ⟨-, h⟩ := s.recordResult_cases <;> rw [h] <;> rfl
@[simp] theorem State.recordResult_presented (s : State) :
    s.recordResult.presented = s.presented := by
  obtain ⟨-, h⟩ | ⟨-, h⟩ := s.recordResult_cases <;> rw [h] <;> rfl

/-- Everything that opening the paths can do. -/
theorem openPaths_cases (s : State) :
    (s.host.pathsOpen = true ∧
      openPaths s = { s with host := { s.host with phase := .reading (s.host.input.getD []) } }) ∨
    (s.host.pathsOpen = false ∧ openPaths s = s.endRun .ioFailed) := by
  cases h : s.host.pathsOpen
  · exact .inr ⟨rfl, by simp [openPaths, h]⟩
  · exact .inl ⟨rfl, by simp [openPaths, h]⟩

@[simp] theorem openPaths_build (s : State) : (openPaths s).build = s.build := by
  obtain ⟨-, h⟩ | ⟨-, h⟩ := openPaths_cases s <;> simp [h]
@[simp] theorem openPaths_ports (s : State) : (openPaths s).ports = s.ports := by
  obtain ⟨-, h⟩ | ⟨-, h⟩ := openPaths_cases s <;> simp [h]
@[simp] theorem openPaths_outputs (s : State) : (openPaths s).outputs = s.outputs := by
  obtain ⟨-, h⟩ | ⟨-, h⟩ := openPaths_cases s <;> simp [h]
@[simp] theorem openPaths_presented (s : State) : (openPaths s).presented = s.presented := by
  obtain ⟨-, h⟩ | ⟨-, h⟩ := openPaths_cases s <;> simp [h]

end Sys2Proof.Machine
end

