-- ==== Sys2Proof/Laws/Step.lean ====
section
/-! SUPPORT. What a step can do, said once; every invariant is derived from these. -/

namespace Sys2Proof.Machine

/-- An instruction's meaning is the evaluation of its request. -/
theorem exec_eq (i : Instr) (s : State) : exec i s = .next (s.drive (encodePorts i)) := by
  cases i <;> rfl

/-- The next state of a line, in each of the five translations. -/
theorem lineStep_cases (line : Text) (s : State) :
    (translateLine s.build line = .skip ∧ lineStep line s = .next s) ∨
    (translateLine s.build line = .unknownMnemonic ∧
      lineStep line s = .next ((s.drive unassignedPorts).diagnose .unknownMnemonic)) ∨
    (∃ m, translateLine s.build line = .malformed m ∧
      lineStep line s = .next ((s.drive (queryPorts m)).diagnose .malformedOperand)) ∨
    (∃ m, translateLine s.build line = .overflow m ∧
      lineStep line s = .next ((s.drive (queryPorts m)).diagnose .fieldOverflow)) ∨
    (∃ i, translateLine s.build line = .request i ∧
      lineStep line s = .next (s.drive (encodePorts i)).recordResult) := by
  unfold lineStep
  cases h : translateLine s.build line with
  | skip => exact .inl ⟨rfl, rfl⟩
  | unknownMnemonic => exact .inr (.inl ⟨rfl, rfl⟩)
  | malformed m => exact .inr (.inr (.inl ⟨m, rfl, rfl⟩))
  | overflow m => exact .inr (.inr (.inr (.inl ⟨m, rfl, rfl⟩)))
  | request i => exact .inr (.inr (.inr (.inr ⟨i, rfl, by simp only [exec_eq]⟩)))

/-- The next state of a presentation: one evaluation of the block. -/
theorem presentStep_eq (p : Ports) (s : State) : presentStep p s = .next (s.drive p) := by
  unfold presentStep decodePorts
  cases hm : Mnemonic.ofSelector p.mnSel with
  | none => rfl
  | some m =>
    rw [Option.map_some]
    simp only [exec_eq, encodePorts, Instr.mnemonic_of, Instr.operands_of,
      Mnemonic.selector_of_ofSelector hm]

/-- Everything a step can do. -/
theorem step_cases (s : State) :
    (∃ p rest, s.presented = p :: rest ∧
      step s = .next (State.drive { s with presented := rest } p)) ∨
    (s.presented = [] ∧ s.host.phase = .closed ∧ step s = .next (openPaths s)) ∨
    (s.presented = [] ∧ s.host.phase = .reading [] ∧ step s = .next (s.endRun s.host.endStatus)) ∨
    (∃ line rest, s.presented = [] ∧ s.host.phase = .reading (line :: rest) ∧
      step s = lineStep line (s.takeLine rest)) ∨
    (∃ x, s.presented = [] ∧ s.host.phase = .ended x ∧ step s = .next (s.drive s.ports)) := by
  unfold step
  cases hp : s.presented with
  | cons p rest => exact .inl ⟨p, rest, rfl, presentStep_eq ..⟩
  | nil =>
    refine .inr ?_
    unfold hostStep
    cases hq : s.host.phase with
    | closed => exact .inl ⟨rfl, rfl, rfl⟩
    | ended x => exact .inr (.inr (.inr ⟨x, rfl, rfl, rfl⟩))
    | reading unread =>
      cases unread with
      | nil => exact .inr (.inl ⟨rfl, rfl, rfl⟩)
      | cons line rest => exact .inr (.inr (.inl ⟨line, rest, rfl, rfl, rfl⟩))

end Sys2Proof.Machine
end

