-- ==== Sys2Proof/Laws/Host.lean ====
section
/-! SUPPORT. The host's functions, said once: the shape query, a line's operands, the results of the
lines, splitting, digits and whitespace. -/

namespace Sys2Proof.Machine

/-- The shape query answers the row's shape (44_assembler_syntax.md R142, R158). -/
theorem shapeOfCode_query (b : Build) (m : Mnemonic) :
    shapeOfCode (encodeBlock b (queryPorts m)).shape = some (b.table.row m).shape := by
  rw [queryPorts, encodeBlock_selector]
  have h : ∀ o, (descriptorOutputs (b.table.row m) o).shape = shapeCode (b.table.row m).shape := by
    intro o
    cases o <;> rfl
  rw [h]
  cases (b.table.row m).shape <;> rfl

/-- The operand part of a line with the query resolved. -/
theorem translateOperands_eq (b : Build) (m : Mnemonic) (ops : Text) :
    translateOperands b m ops =
      match parseOperands (b.table.row m).shape ops with
      | none   => .malformed m
      | some v =>
        placeOperands b.overflow m (tupleOrder (b.table.row m).layout (b.table.row m).shape v) := by
  have h := shapeOfCode_query b m
  unfold queryPorts at h
  cases hp : parseOperands (b.table.row m).shape ops <;> simp only [translateOperands, h, hp]

/-- The host never asks for a request on the port operands other than the parsed ones. -/
theorem placeOperands_cases (policy : OverflowPolicy) (m : Mnemonic) (v : Int × Int × Int) :
    (∃ a b c, placePort policy v.1 = some a ∧ placePort policy v.2.1 = some b ∧
      placePort policy v.2.2 = some c ∧ placeOperands policy m v = .request (Instr.of m a b c)) ∨
    ((placePort policy v.1 = none ∨ placePort policy v.2.1 = none ∨
      placePort policy v.2.2 = none) ∧ placeOperands policy m v = .overflow m) := by
  unfold placeOperands
  split
  · rename_i a b c h1 h2 h3
    exact .inl ⟨a, b, c, h1, h2, h3, rfl⟩
  · rename_i h
    refine .inr ⟨?_, rfl⟩
    cases h1 : placePort policy v.1 with
    | none => exact .inl rfl
    | some a =>
      cases h2 : placePort policy v.2.1 with
      | none => exact .inr (.inl rfl)
      | some b =>
        cases h3 : placePort policy v.2.2 with
        | none => exact .inr (.inr rfl)
        | some c => exact absurd h3 (h a b c h1 h2)

theorem lineResults_append (b : Build) (first : Nat) (lines : List Text) (line : Text) :
    lineResults b first (lines ++ [line]) =
      lineResults b first lines ++ [assembleLine b line (first + lines.length)] := by
  simp [lineResults, List.zipIdx_append]

theorem lineResults_cons (b : Build) (first : Nat) (line : Text) (lines : List Text) :
    lineResults b first (line :: lines) =
      assembleLine b line first :: lineResults b (first + 1) lines := by
  simp [lineResults, List.zipIdx_cons]

/-- One more step of a run. -/
theorem run_succ (n : Nat) {s t : State} (h : step s = .next t) :
    Host.Core.run Sys2Proof.core (n + 1) s = Host.Core.run Sys2Proof.core n t := by
  have h' : Sys2Proof.core.step s = .next t := h
  simp only [Host.Core.run, h']

/-- A text without the delimiter is one token (44_assembler_syntax.md R146). -/
theorem splitOnChar_of_notMem {d : Char} {t : Text} (h : d ∉ t) : splitOnChar d t = [t] := by
  induction t with
  | nil => rfl
  | cons c t ih =>
    simp only [List.mem_cons, not_or] at h
    simp [splitOnChar, Ne.symm h.1, ih h.2]

/-- A text cut at its first delimiter (44_assembler_syntax.md R146). -/
theorem splitOnChar_append {d : Char} {t : Text} (u : Text) (h : d ∉ t) :
    splitOnChar d (t ++ d :: u) = t :: splitOnChar d u := by
  induction t with
  | nil => simp [splitOnChar]
  | cons c t ih =>
    simp only [List.mem_cons, not_or] at h
    simp [splitOnChar, Ne.symm h.1, ih h.2]

theorem splitOnChar_ne_nil (d : Char) (t : Text) : splitOnChar d t ≠ [] := by
  cases t with
  | nil => simp [splitOnChar]
  | cons c t =>
    unfold splitOnChar
    split
    · simp
    · split <;> simp

/-- One token more than there are delimiters (44_assembler_syntax.md R146). -/
theorem splitOnChar_length (d : Char) (t : Text) : (splitOnChar d t).length = t.count d + 1 := by
  induction t with
  | nil => rfl
  | cons c t ih =>
    by_cases hc : c = d
    · simp [splitOnChar, hc, ih]
    · cases hs : splitOnChar d t with
      | nil => exact absurd hs (splitOnChar_ne_nil d t)
      | cons x xs =>
        have h : xs.length = t.count d := by simpa [hs] using ih
        simp [splitOnChar, hc, hs, h]

/-- Everything that splitting can answer: the first token, and the rest split. -/
theorem splitOnChar_eq_cons_iff {d : Char} {t a : Text} {l : List Text} :
    splitOnChar d t = a :: l ↔
      d ∉ a ∧ ((l = [] ∧ t = a) ∨ ∃ u, t = a ++ d :: u ∧ splitOnChar d u = l) := by
  constructor
  · induction t generalizing a l with
    | nil =>
      rintro h
      obtain ⟨rfl, rfl⟩ : [] = a ∧ [] = l := by simpa [splitOnChar] using h
      simp
    | cons c t ih =>
      intro h
      by_cases hc : c = d
      · subst hc
        obtain ⟨rfl, rfl⟩ : [] = a ∧ splitOnChar c t = l := by simpa [splitOnChar] using h
        exact ⟨by simp, .inr ⟨t, rfl, rfl⟩⟩
      · cases hs : splitOnChar d t with
        | nil => exact absurd hs (splitOnChar_ne_nil d t)
        | cons x xs =>
          obtain ⟨rfl, rfl⟩ : c :: x = a ∧ xs = l := by simpa [splitOnChar, hc, hs] using h
          obtain ⟨h1, ⟨rfl, rfl⟩ | ⟨u, rfl, h3⟩⟩ := ih hs
          · exact ⟨by simp [h1, Ne.symm hc], .inl ⟨rfl, rfl⟩⟩
          · exact ⟨by simp [h1, Ne.symm hc], .inr ⟨u, rfl, h3⟩⟩
  · rintro ⟨h, ⟨rfl, rfl⟩ | ⟨u, rfl, rfl⟩⟩
    · exact splitOnChar_of_notMem h
    · exact splitOnChar_append u h

theorem splitOnChar_eq_pair_iff {d : Char} {t a b : Text} :
    splitOnChar d t = [a, b] ↔ t = a ++ d :: b ∧ d ∉ a ∧ d ∉ b := by
  rw [splitOnChar_eq_cons_iff]
  constructor
  · rintro ⟨ha, ⟨h, -⟩ | ⟨u, rfl, h⟩⟩
    · cases h
    · obtain ⟨hb, ⟨-, rfl⟩ | ⟨w, -, hw⟩⟩ := splitOnChar_eq_cons_iff.mp h
      · exact ⟨rfl, ha, hb⟩
      · exact absurd hw (splitOnChar_ne_nil _ _)
  · rintro ⟨rfl, ha, hb⟩
    exact ⟨ha, .inr ⟨b, rfl, splitOnChar_of_notMem hb⟩⟩

theorem splitOnChar_eq_triple_iff {d : Char} {t a b c : Text} :
    splitOnChar d t = [a, b, c] ↔ t = a ++ d :: (b ++ d :: c) ∧ d ∉ a ∧ d ∉ b ∧ d ∉ c := by
  rw [splitOnChar_eq_cons_iff]
  constructor
  · rintro ⟨ha, ⟨h, -⟩ | ⟨u, rfl, h⟩⟩
    · cases h
    · obtain ⟨rfl, hb, hc⟩ := splitOnChar_eq_pair_iff.mp h
      exact ⟨rfl, ha, hb, hc⟩
  · rintro ⟨rfl, ha, hbc⟩
    exact ⟨ha, .inr ⟨_, rfl, splitOnChar_eq_pair_iff.mpr ⟨rfl, hbc⟩⟩⟩

/-- The digit strings of the claims are those the parser reads. -/
theorem isDigits_iff (t : Text) : isDigits t ↔ t ≠ [] ∧ t.all isDecimalDigit = true := by
  have h : ∀ c : Char, ('0' ≤ c ∧ c ≤ '9') ↔ isDecimalDigit c = true := by
    intro c
    simp only [isDecimalDigit, decide_eq_true_eq, Char.le_def, UInt32.le_iff_toNat_le]
    exact Iff.rfl
  simp only [isDigits, h, List.all_eq_true]

/-- A value within 32 bits is placed on its port as itself (44_assembler_syntax.md R151). -/
theorem placePort_of_bounds {policy : OverflowPolicy} {v : Int}
    (h : policy = .reject → -2147483648 ≤ v ∧ v ≤ 2147483647) :
    placePort policy v = some (BitVec.ofInt 32 v) := by
  unfold placePort
  rw [if_neg (by tauto)]
  congr 1
  apply BitVec.eq_of_toNat_eq
  simp [lowBits]
  omega

theorem placePort_eq_none_iff {policy : OverflowPolicy} {v : Int} :
    placePort policy v = none ↔
      policy = .reject ∧ ¬(-2147483648 ≤ v ∧ v ≤ 2147483647) := by
  unfold placePort
  split <;> simp_all

/-- The digits written for a number below `10^fuel` read back as it. -/
theorem decimalValue_decimalDigits {fuel n : Nat} (h : n < 10 ^ fuel) :
    decimalValue (decimalDigits fuel n) = n := by
  induction fuel generalizing n with
  | zero => simp_all [decimalDigits, decimalValue]
  | succ fuel ih =>
    have hc : (Char.ofNat (48 + n % 10)).toNat = 48 + n % 10 := by
      have : n % 10 < 10 := Nat.mod_lt _ (by decide)
      interval_cases n % 10 <;> rfl
    unfold decimalDigits
    split
    · simp [decimalValue, hc]
      omega
    · have h1 := ih (n := n / 10) (by rw [pow_succ] at h; omega)
      simp only [decimalValue] at h1
      simp only [decimalValue, List.foldl_append, List.foldl_cons, List.foldl_nil, h1, hc]
      omega

end Sys2Proof.Machine
end

