-- ==== Sys2Proof/Laws/PerInstr.lean ====
section
/-! SUPPORT. Statements about every instruction as syntax, one lemma per constructor. -/

namespace Sys2Proof.Laws

/-- The request on the ports decodes to the instruction, and never uses the unassigned selector. -/
def PortsRoundTrip.Statement (i : Instr) : Prop :=
  decodePorts (encodePorts i) = some i ∧ (encodePorts i).mnSel ≠ 7

theorem PortsRoundTrip.lh (rd rs1 imm : Port) : PortsRoundTrip.Statement (.lh rd rs1 imm) :=
  ⟨rfl, Mnemonic.selector_ne_seven .lh⟩
theorem PortsRoundTrip.sh (rs1 rs2 imm : Port) : PortsRoundTrip.Statement (.sh rs1 rs2 imm) :=
  ⟨rfl, Mnemonic.selector_ne_seven .sh⟩
theorem PortsRoundTrip.sub (rd rs1 rs2 : Port) : PortsRoundTrip.Statement (.sub rd rs1 rs2) :=
  ⟨rfl, Mnemonic.selector_ne_seven .sub⟩
theorem PortsRoundTrip.or (rd rs1 rs2 : Port) : PortsRoundTrip.Statement (.or rd rs1 rs2) :=
  ⟨rfl, Mnemonic.selector_ne_seven .or⟩
theorem PortsRoundTrip.andi (rd rs1 imm : Port) : PortsRoundTrip.Statement (.andi rd rs1 imm) :=
  ⟨rfl, Mnemonic.selector_ne_seven .andi⟩
theorem PortsRoundTrip.srl (rd rs1 rs2 : Port) : PortsRoundTrip.Statement (.srl rd rs1 rs2) :=
  ⟨rfl, Mnemonic.selector_ne_seven .srl⟩
theorem PortsRoundTrip.beq (rs1 rs2 imm : Port) : PortsRoundTrip.Statement (.beq rs1 rs2 imm) :=
  ⟨rfl, Mnemonic.selector_ne_seven .beq⟩

end Sys2Proof.Laws
end

