-- ==== Sys2Proof/Laws/Words.lean ====
section
/-! SUPPORT. The fields of a word read back, and the immediate fields as numbers: what proofs about
words and about the word decoder cite. -/

namespace Sys2Proof.Machine

/-- The value of a word of six fields. -/
theorem toNat_six (x : BitVec 7) (a b : BitVec 5) (f : BitVec 3) (c : BitVec 5) (o : BitVec 7) :
    BitVec.toNat (w := 32) (x ++ a ++ b ++ f ++ c ++ o) =
      ((((x.toNat * 2 ^ 5 + a.toNat) * 2 ^ 5 + b.toNat) * 2 ^ 3 + f.toNat) * 2 ^ 5 + c.toNat) * 2 ^ 7
        + o.toNat := by
  have h : (x ++ a ++ b ++ f ++ c ++ o).toNat = ((((x.toNat * 2 ^ 5 + a.toNat) * 2 ^ 5 + b.toNat) *
      2 ^ 3 + f.toNat) * 2 ^ 5 + c.toNat) * 2 ^ 7 + o.toNat := by
    rw [toNat_append_add, toNat_append_add, toNat_append_add, toNat_append_add, toNat_append_add]
  exact h

/-- The value of a word of five fields. -/
theorem toNat_five (x : BitVec 12) (b : BitVec 5) (f : BitVec 3) (c : BitVec 5) (o : BitVec 7) :
    BitVec.toNat (w := 32) (x ++ b ++ f ++ c ++ o) =
      (((x.toNat * 2 ^ 5 + b.toNat) * 2 ^ 3 + f.toNat) * 2 ^ 5 + c.toNat) * 2 ^ 7 + o.toNat := by
  have h : (x ++ b ++ f ++ c ++ o).toNat =
      (((x.toNat * 2 ^ 5 + b.toNat) * 2 ^ 3 + f.toNat) * 2 ^ 5 + c.toNat) * 2 ^ 7 + o.toNat := by
    rw [toNat_append_add, toNat_append_add, toNat_append_add, toNat_append_add]
  exact h

/-- The fields of a word of formats R, S and SB read back (30_encoding.md R51, R53, R54). -/
theorem fields_six (x : BitVec 7) (a b : BitVec 5) (f : BitVec 3) (c : BitVec 5) (o : BitVec 7) :
    let w : Word := x ++ a ++ b ++ f ++ c ++ o
    w.extractLsb' 25 7 = x ∧ w.extractLsb' 20 5 = a ∧ w.extractLsb' 15 5 = b ∧
      w.extractLsb' 12 3 = f ∧ w.extractLsb' 7 5 = c ∧ w.extractLsb' 0 7 = o := by
  intro w
  have hw := toNat_six x a b f c o
  change w.toNat = _ at hw
  have h1 := x.isLt
  have h2 := a.isLt
  have h3 := b.isLt
  have h4 := f.isLt
  have h5 := c.isLt
  have h6 := o.isLt
  refine ⟨?_, ?_, ?_, ?_, ?_, ?_⟩ <;> apply BitVec.eq_of_toNat_eq <;>
    rw [BitVec.extractLsb'_toNat, Nat.shiftRight_eq_div_pow, hw] <;> omega

/-- The fields of a word of format I read back (30_encoding.md R52). -/
theorem fields_five (x : BitVec 12) (b : BitVec 5) (f : BitVec 3) (c : BitVec 5) (o : BitVec 7) :
    let w : Word := x ++ b ++ f ++ c ++ o
    w.extractLsb' 20 12 = x ∧ w.extractLsb' 15 5 = b ∧ w.extractLsb' 12 3 = f ∧
      w.extractLsb' 7 5 = c ∧ w.extractLsb' 0 7 = o := by
  intro w
  have hw := toNat_five x b f c o
  change w.toNat = _ at hw
  have h1 := x.isLt
  have h2 := b.isLt
  have h3 := f.isLt
  have h4 := c.isLt
  have h5 := o.isLt
  refine ⟨?_, ?_, ?_, ?_, ?_⟩ <;> apply BitVec.eq_of_toNat_eq <;>
    rw [BitVec.extractLsb'_toNat, Nat.shiftRight_eq_div_pow, hw] <;> omega

/-- A field within a field. -/
theorem extract_within (w : Word) (lo n k j : Nat) (h : k + j ≤ n) :
    w.extractLsb' (lo + k) j = (w.extractLsb' lo n).extractLsb' k j := by
  ext i hi
  simp only [BitVec.getElem_extractLsb', BitVec.getLsbD_extractLsb']
  have h' : k + i < n := by omega
  simp [h', Nat.add_assoc]

theorem toInt_emod (p : Port) : p.toInt % 4294967296 = p.toNat := by
  have h := p.isLt
  rw [BitVec.toInt_eq_toNat_cond]
  split <;> omega

theorem msb_iff_neg (p : Port) : p.msb = true ↔ p.toInt < 0 := by
  rw [BitVec.msb_eq_toInt]
  simp

theorem immHiBitsSB_twos_toNat (c : Port) :
    (immHiBitsSB .twos c).toNat = c.toNat / 4096 % 2 * 64 + c.toNat / 32 % 64 := by
  simp only [immHiBitsSB]
  rw [toNat_append_add]
  simp [Nat.shiftRight_eq_div_pow]

theorem immHiBitsSB_compat_toNat (c : Port) :
    (immHiBitsSB .compat c).toNat = (splitSource .compat c).toNat / 32 % 64 := by
  simp only [immHiBitsSB]
  rw [toNat_append_add]
  simp [Nat.shiftRight_eq_div_pow]

theorem immLoBitsSB_toNat (c : Port) :
    (immLoBitsSB c).toNat = c.toNat / 2 % 16 * 2 + c.toNat / 2048 % 2 := by
  rw [immLoBitsSB, toNat_append_add]
  simp [Nat.shiftRight_eq_div_pow]

theorem immHiBitsS_toNat (mode : ImmSplitMode) (c : Port) :
    (immHiBitsS mode c).toNat = (splitSource mode c).toNat / 32 % 128 := by
  simp [immHiBitsS, Nat.shiftRight_eq_div_pow]

theorem immLoBitsS_toNat (c : Port) : (immLoBitsS c).toNat = c.toNat % 32 := by
  simp [immLoBitsS]

end Sys2Proof.Machine
end

