-- ==== Sys2Proof/Tests/Slice0.lean ====
section
/-! SUPPORT. The model's own tests. Expected words and errors come from the vectors of
95_test_vectors.md and the worked examples of the family files, or are written out from the layouts of
30_encoding.md R51 to R54. The `test_witness_...` theorems show states and operands that meet the
hypotheses of the statement they name. -/

namespace Sys2Proof.Tests

open Sys2Proof.Machine

/-- This hardware's table with a policy and a split mode. -/
def build (policy : OverflowPolicy) (mode : ImmSplitMode) : Build := ⟨policy, mode, descriptorTable⟩

/-- A state with some build and nothing to do. -/
def idle (b : Build) : State := { State.reset with build := b }

/-- A state with one presentation waiting. -/
def presenting (b : Build) (p : Ports) : State := { idle b with presented := [p] }

/-- A state whose host has opened a file and reads its lines. -/
def reading (b : Build) (lines : List String) : State :=
  { idle b with
    host := { resetHost with
      input := some (lines.map String.toList)
      phase := .reading (lines.map String.toList) } }

/-- The state a step answers, where it answers one. -/
def after (o : Host.Outcome State Fault Refusal) : Option State :=
  match o with
  | .next s    => some s
  | .fault _   => none
  | .refused _ => none

/-- The outputs a meaning leaves. -/
def outputsOf (o : Host.Outcome State Fault Refusal) : Option Outputs := (after o).map State.outputs

/-- What the host has after a step. -/
def hostOf (o : Host.Outcome State Fault Refusal) : Option HostState := (after o).map State.host

/-- The outputs of an instruction in all four modes: `compat` with `reject` and `truncate`, then `twos`
with `reject` and `truncate` (the columns of 95_test_vectors.md L2). -/
def fourModes (i : Instr) : List (Option Outputs) :=
  [outputsOf (exec i (idle (build .reject .compat))),
   outputsOf (exec i (idle (build .truncate .compat))),
   outputsOf (exec i (idle (build .reject .twos))),
   outputsOf (exec i (idle (build .truncate .twos)))]

/-! ### WellFormed refuses ill-formed terms -/

theorem test_illformed_register : regInRange 32 = false ∧ regInRange (-1) = false ∧
    Instr.wellFormed (.sub 32 1 1) = false ∧ Instr.wellFormed (.or 1 32 1) = false ∧
    Instr.wellFormed (.srl 1 1 (-1)) = false := by decide
theorem test_illformed_imm12 : imm12InRange 2048 = false ∧ imm12InRange (-2049) = false ∧
    Instr.wellFormed (.lh 7 8 2048) = false ∧ Instr.wellFormed (.andi 1 1 4095) = false ∧
    Instr.wellFormed (.sh 2 3 (-2049)) = false := by decide
theorem test_illformed_imm13 : imm13InRange 4096 = false ∧ imm13InRange (-4097) = false ∧
    Instr.wellFormed (.beq 1 2 4096) = false := by decide
theorem test_wellformed_edges : Instr.wellFormed (.sub 0 31 31) = true ∧
    Instr.wellFormed (.lh 0 31 2047) = true ∧ Instr.wellFormed (.sh 0 31 (-2048)) = true ∧
    Instr.wellFormed (.beq 31 0 4095) = true ∧ Instr.wellFormed (.beq 0 31 (-4096)) = true := by
  decide
theorem test_illformed_table_shape : DescriptorTable.wellFormed
    { descriptorTable with sh := ⟨.S, 0b0100011#7, 0b001#3, .registerList⟩ } = false := by decide
theorem test_illformed_table_same_key : DescriptorTable.wellFormed
    { descriptorTable with srl := descriptorTable.or } = false := by decide

/-! ### Decoding: words written out from the layouts of R51 to R54 -/

theorem test_decode_lh : decodeTableWord 32 0b000000001000_00110_001_00101_0000011 =
    some (.lh 5 6 8) := by decide
theorem test_decode_sh : decodeTableWord 32 0b0000001_00011_00010_001_00100_0100011 =
    some (.sh 2 3 36) := by decide
theorem test_decode_sub : decodeTableWord 32 0b0100000_00011_00010_000_00001_0110011 =
    some (.sub 1 2 3) := by decide
theorem test_decode_or : decodeTableWord 32 0b0000000_01100_01011_110_01010_0110011 =
    some (.or 10 11 12) := by decide
theorem test_decode_andi : decodeTableWord 32 0b111111111111_00110_111_00101_0010011 =
    some (.andi 5 6 (-1)) := by decide
theorem test_decode_srl : decodeTableWord 32 0b0000000_00101_00100_101_00011_0110011 =
    some (.srl 3 4 5) := by decide
theorem test_decode_beq : decodeTableWord 32 0b0000001_00010_00001_000_10011_1100011 =
    some (.beq 1 2 2098) := by decide
/-- Other lengths than 32 bits, as log 23 chooses. -/
theorem test_decode_other_lengths :
    decodeTableWord 16 0b101_00000_0110011 = some (.srl 0 0 0) ∧
    decodeTableWord 40 0b0100000_00011_00010_000_00001_0110011 = some (.sub 1 2 3) ∧
    decodeTableWord 40 0b1_0100000_00011_00010_000_00001_0110011 = none := by decide
theorem test_decode_rejects : decodeTableWord 32 0b1111111_00011_00010_000_00001_0110011 = none ∧
    decodeTableWord 32 0b0000000_00000_00000_000_00000_0000000 = none ∧
    decodeTableWord 32 0b1000000_00010_00001_000_00000_1100011 = none ∧
    decodeTableWord 32 0b1000000_00011_00010_001_00001_0100011 = none := by decide
theorem test_encode_twos_words : encodeWord .twos descriptorTable (.beq 1 2 (-4)) =
      0b1111111_00010_00001_000_11101_1100011#32 ∧
    encodeWord .twos descriptorTable (.sh 2 3 (-33)) =
      0b1111110_00011_00010_001_11111_0100011#32 := by decide

/-! ### The seven instructions, in the four modes (95_test_vectors.md L2) -/

theorem test_sub_words : fourModes (.sub 1 2 3) = List.replicate 4 (some ⟨0x403100B3, 0, 0, 0⟩) := by
  decide
theorem test_sub_register_32 : fourModes (.sub 32 1 1) =
    [some ⟨0, 2, 0, 0⟩, some ⟨0x40108033, 0, 0, 0⟩, some ⟨0, 2, 0, 0⟩,
     some ⟨0x40108033, 0, 0, 0⟩] := by decide
theorem test_or_words : fourModes (.or 10 11 12) =
    List.replicate 4 (some ⟨0x00C5E533, 0, 0, 0⟩) := by decide
theorem test_or_register_32 : fourModes (.or 1 2 32) =
    [some ⟨0, 2, 0, 0⟩, some ⟨0x000160B3, 0, 0, 0⟩, some ⟨0, 2, 0, 0⟩,
     some ⟨0x000160B3, 0, 0, 0⟩] := by decide
theorem test_srl_words : fourModes (.srl 3 4 5) =
    List.replicate 4 (some ⟨0x005251B3, 0, 0, 0⟩) := by decide
theorem test_srl_edges : fourModes (.srl 31 0 31) =
    List.replicate 4 (some ⟨0x01F05FB3, 0, 0, 0⟩) := by decide
theorem test_lh_words : fourModes (.lh 7 8 (-2048)) =
    List.replicate 4 (some ⟨0x80041383, 0, 1, 2⟩) := by decide
theorem test_lh_2048 : fourModes (.lh 7 8 2048) =
    [some ⟨0, 2, 1, 2⟩, some ⟨0x80041383, 0, 1, 2⟩, some ⟨0, 2, 1, 2⟩,
     some ⟨0x80041383, 0, 1, 2⟩] := by decide
theorem test_andi_words : fourModes (.andi 5 6 10) =
    List.replicate 4 (some ⟨0x00A37293, 0, 1, 1⟩) := by decide
theorem test_andi_4095 : fourModes (.andi 1 1 4095) =
    [some ⟨0, 2, 1, 1⟩, some ⟨0xFFF0F093, 0, 1, 1⟩, some ⟨0, 2, 1, 1⟩,
     some ⟨0xFFF0F093, 0, 1, 1⟩] := by decide
theorem test_sh_minus_33 : fourModes (.sh 2 3 (-33)) =
    [some ⟨0x02311FA3, 0, 2, 2⟩, some ⟨0x02311FA3, 0, 2, 2⟩, some ⟨0xFC311FA3, 0, 2, 2⟩,
     some ⟨0xFC311FA3, 0, 2, 2⟩] := by decide
theorem test_sh_minus_2049 : fourModes (.sh 2 3 (-2049)) =
    [some ⟨0, 2, 2, 2⟩, some ⟨0x80311FA3, 0, 2, 2⟩, some ⟨0, 2, 2, 2⟩,
     some ⟨0x7E311FA3, 0, 2, 2⟩] := by decide
theorem test_beq_minus_2080 : fourModes (.beq 1 2 (-2080)) =
    [some ⟨0x02208063, 0, 3, 1⟩, some ⟨0x02208063, 0, 3, 1⟩, some ⟨0xFE208063, 0, 3, 1⟩,
     some ⟨0xFE208063, 0, 3, 1⟩] := by decide
theorem test_beq_minus_4096 : fourModes (.beq 1 2 (-4096)) =
    [some ⟨0, 2, 3, 1⟩, some ⟨0x00208063, 0, 3, 1⟩, some ⟨0x80208063, 0, 3, 1⟩,
     some ⟨0x80208063, 0, 3, 1⟩] := by decide
theorem test_unassigned_selector :
    outputsOf (step (presenting (build .reject .compat) ⟨7, 99, -5, 70000⟩)) =
      some ⟨0, 1, 0, 3⟩ := by decide
theorem test_reset_outputs : State.reset.outputs = ⟨0x00001003, 0, 1, 2⟩ := by decide
theorem test_fetch_word : outputsOf (step (State.reset.withFetchWord 32 0x403100B3)) =
    some ⟨0x403100B3, 0, 0, 0⟩ := by decide

/-! ### The host (95_test_vectors.md, host parser and L3) -/

theorem test_host_parses :
    translateLine (build .reject .compat) "sub   x1 ,x2,  x3".toList = .request (.sub 1 2 3) ∧
    translateLine (build .reject .compat) "sub r1,a2,x03".toList = .request (.sub 1 2 3) ∧
    translateLine (build .reject .compat) "andi x1,x2,+7".toList = .request (.andi 1 2 7) ∧
    translateLine (build .reject .compat) "lh x5,8(x6)".toList = .request (.lh 5 6 8) ∧
    translateLine (build .reject .compat) "sh x9,12(x6)".toList = .request (.sh 6 9 12) ∧
    translateLine (build .reject .compat) "beq x1,x2,-4".toList = .request (.beq 1 2 (-4)) := by
  decide
theorem test_host_rejects :
    translateLine (build .reject .compat) "SUB x1,x2,x3".toList = .unknownMnemonic ∧
    translateLine (build .reject .compat) "sub x1,x2".toList = .malformed .sub ∧
    translateLine (build .reject .compat) "sub sp,x2,x3".toList = .malformed .sub ∧
    translateLine (build .reject .compat) "andi x1,x2,0x10".toList = .malformed .andi ∧
    translateLine (build .reject .compat) "lh x5,(x6)".toList = .malformed .lh ∧
    translateLine (build .reject .compat) "lh x5,8(x6".toList = .malformed .lh ∧
    translateLine (build .reject .compat) "  \t ".toList = .skip := by decide
theorem test_host_beyond_the_port :
    assembleLine (build .reject .compat) "andi x1, x2, 99999999999".toList 5 =
      .diag 5 .fieldOverflow ∧
    assembleLine (build .truncate .compat) "andi x1, x2, 99999999999".toList 5 =
      .out (bitsText 0x7FF17093) := by decide
theorem test_host_output_line :
    assembleLine (build .reject .compat) "lh x5, 8(x6)".toList 1 =
      .out "00000000100000110001001010000011".toList := by decide
theorem test_host_line_step :
    (hostOf (step (reading (build .reject .compat) ["xor x1,x2,x3", "x"]))).map
        (fun h => (h.lineNo, h.output, h.diagnostics, h.phase)) =
      some (1, [], [(1, .unknownMnemonic)], .reading [['x']]) := by decide
theorem test_host_command_line :
    CommandLine.ofArgs ["in".toList] = some ⟨"in".toList, none⟩ ∧
    CommandLine.ofArgs ["in".toList, "-o".toList, "out".toList] =
      some ⟨"in".toList, some "out".toList⟩ ∧
    CommandLine.ofArgs ["-o".toList, "out".toList, "in".toList] =
      some ⟨"in".toList, some "out".toList⟩ ∧
    CommandLine.ofArgs ["in".toList, "-o".toList, "-o".toList] =
      some ⟨"in".toList, some "-o".toList⟩ ∧
    CommandLine.ofArgs ["-o".toList] = none ∧ CommandLine.ofArgs [] = none := by decide
theorem test_host_launch_opens :
    ((State.reset.launch ["in".toList] none true).bind (fun s => hostOf (step s))).map
        HostState.phase = some (.ended .ioFailed) := by decide

/-! ### Witnesses: what meets the hypotheses of each statement -/

theorem test_witness_StepRunsPresentedInstruction :
    (presenting Build.hardware ⟨2, 1, 2, 3⟩).presented = ⟨2, 1, 2, 3⟩ :: [] ∧
    decodePorts ⟨2, 1, 2, 3⟩ = some (.sub 1 2 3) := by decide
theorem test_witness_StepRunsTranslatedLine :
    let s := reading Build.hardware ["sub x1,x2,x3", "beq x1,x2,0"]
    s.presented = [] ∧
    s.host.phase = .reading ("sub x1,x2,x3".toList :: ["beq x1,x2,0".toList]) ∧
    translateLine s.build "sub x1,x2,x3".toList = .request (.sub 1 2 3) ∧
    exec (.sub 1 2 3) (s.takeLine ["beq x1,x2,0".toList]) =
      .next ((s.takeLine ["beq x1,x2,0".toList]).request .sub 1 2 3) ∧
    ((s.takeLine ["beq x1,x2,0".toList]).request .sub 1 2 3).outputs.err = 0 :=
  ⟨rfl, rfl, by decide, rfl, by decide⟩
theorem test_witness_StepRunsTranslatedLine_overflow :
    let s := reading Build.hardware ["sub x32,x1,x1"]
    s.presented = [] ∧ s.host.phase = .reading ("sub x32,x1,x1".toList :: []) ∧
    translateLine s.build "sub x32,x1,x1".toList = .request (.sub 32 1 1) ∧
    exec (.sub 32 1 1) (s.takeLine []) = .next ((s.takeLine []).request .sub 32 1 1) ∧
    ((s.takeLine []).request .sub 32 1 1).outputs.err = 2 :=
  ⟨rfl, rfl, by decide, rfl, by decide⟩
theorem test_witness_FetchedTableWordRuns :
    decodeTableWord 32 0x80311023 = some (.sh 2 3 (-2048)) ∧
    decodeTableWord 32 0x7E208FE3 = some (.beq 1 2 4094) := by decide
theorem test_witness_PortRequestsRoundTrip :
    decodePorts ⟨6, 1, 2, -4096⟩ = some (.beq 1 2 (-4096)) ∧ decodePorts ⟨7, 0, 0, 0⟩ = none := by
  decide
theorem test_witness_SubBuildsItsWord : (idle (build .reject .twos)).build.table = descriptorTable ∧
    (regInRange 31 = true ∧ regInRange 0 = true) ∧
    ¬(regInRange 32 = true ∧ regInRange 1 = true ∧ regInRange 1 = true) ∧
    ¬(regInRange (-1) = true ∧ regInRange 1 = true ∧ regInRange 1 = true) ∧
    (idle (build .truncate .compat)).build.overflow ≠ .reject ∧
    outputsOf (exec (.sub (-1) 1 1) (idle (build .truncate .compat))) =
      some ⟨0x40108FB3, 0, 0, 0⟩ := by decide
theorem test_witness_OrBuildsItsWord : (idle (build .reject .compat)).build.table = descriptorTable ∧
    (idle (build .reject .compat)).build.overflow = .reject ∧
    (regInRange 0 = true ∧ regInRange 31 = true ∧ regInRange 0 = true) ∧
    outputsOf (exec (.or 0 31 0) (idle (build .reject .compat))) = some ⟨0x000FE033, 0, 0, 0⟩ ∧
    ¬(regInRange 1 = true ∧ regInRange 2 = true ∧ regInRange 32 = true) := by decide
theorem test_witness_SrlBuildsItsWord : (idle (build .reject .compat)).build.table = descriptorTable ∧
    (idle (build .reject .compat)).build.overflow = .reject ∧
    (regInRange 0 = true ∧ regInRange 0 = true ∧ regInRange 0 = true) ∧
    outputsOf (exec (.srl 0 0 0) (idle (build .reject .compat))) = some ⟨0x00005033, 0, 0, 0⟩ ∧
    ¬(regInRange 1 = true ∧ regInRange (-1) = true ∧ regInRange 2 = true) := by decide
theorem test_witness_LhBuildsItsWord : (idle (build .reject .compat)).build.table = descriptorTable ∧
    (idle (build .reject .compat)).build.overflow = .reject ∧
    (regInRange 7 = true ∧ regInRange 8 = true ∧ -2048 ≤ BitVec.toInt (2047 : Port) ∧
      BitVec.toInt (2047 : Port) ≤ 2047) ∧
    outputsOf (exec (.lh 7 8 2047) (idle (build .reject .compat))) = some ⟨0x7FF41383, 0, 1, 2⟩ ∧
    ¬(-2048 ≤ BitVec.toInt (-2049 : Port) ∧ BitVec.toInt (-2049 : Port) ≤ 2047) ∧
    outputsOf (exec (.lh 7 8 (-2049)) (idle (build .truncate .compat))) =
      some ⟨0x7FF41383, 0, 1, 2⟩ := by decide
theorem test_witness_AndiBuildsItsWord : (idle (build .reject .compat)).build.table = descriptorTable ∧
    (idle (build .reject .compat)).build.overflow = .reject ∧
    (regInRange 1 = true ∧ regInRange 1 = true ∧ -2048 ≤ BitVec.toInt (-2048 : Port) ∧
      BitVec.toInt (-2048 : Port) ≤ 2047) ∧
    outputsOf (exec (.andi 1 1 (-2048)) (idle (build .reject .compat))) =
      some ⟨0x8000F093, 0, 1, 1⟩ ∧
    ¬(regInRange 32 = true ∧ regInRange 1 = true) ∧
    outputsOf (exec (.andi 32 1 0) (idle (build .reject .compat))) = some ⟨0, 2, 1, 1⟩ := by decide
theorem test_witness_ShBuildsItsWord : (idle (build .reject .compat)).build.table = descriptorTable ∧
    (idle (build .reject .compat)).build.overflow = .reject ∧
    (regInRange 2 = true ∧ regInRange 3 = true ∧ -2048 ≤ BitVec.toInt (-2048 : Port) ∧
      BitVec.toInt (-2048 : Port) ≤ 2047) ∧
    outputsOf (exec (.sh 2 3 (-2048)) (idle (build .reject .compat))) =
      some ⟨0x80311023, 0, 2, 2⟩ ∧
    outputsOf (exec (.sh 2 3 (-1)) (idle (build .reject .twos))) = some ⟨0xFE311FA3, 0, 2, 2⟩ ∧
    ¬(-2048 ≤ BitVec.toInt (2048 : Port) ∧ BitVec.toInt (2048 : Port) ≤ 2047) ∧
    outputsOf (exec (.sh 2 3 2048) (idle (build .reject .compat))) = some ⟨0, 2, 2, 2⟩ := by decide
theorem test_witness_BeqBuildsItsWord : (idle (build .reject .compat)).build.table = descriptorTable ∧
    (idle (build .reject .compat)).build.overflow = .reject ∧
    (regInRange 1 = true ∧ regInRange 2 = true ∧ -4096 ≤ BitVec.toInt (-4096 : Port) ∧
      BitVec.toInt (-4096 : Port) ≤ 4095) ∧
    outputsOf (exec (.beq 1 2 4095) (idle (build .reject .compat))) = some ⟨0x7E208FE3, 0, 3, 1⟩ ∧
    outputsOf (exec (.beq 1 2 (-4096)) (idle (build .reject .twos))) =
      some ⟨0x80208063, 0, 3, 1⟩ ∧
    outputsOf (exec (.beq 1 2 4096) (idle (build .reject .twos))) = some ⟨0, 2, 3, 1⟩ ∧
    outputsOf (exec (.beq 1 2 (-4097)) (idle (build .truncate .twos))) =
      some ⟨0x7E208FE3, 0, 3, 1⟩ := by decide
theorem test_witness_ExecFrame :
    exec (.lh 5 6 8) State.reset = .next (State.reset.request .lh 5 6 8) := rfl
theorem test_witness_FormatRFamily : (build .reject .compat).table.wellFormed = true ∧
    ((build .reject .compat).table.row .or).layout = .R 0 ∧
    (build .reject .compat).overflow = .reject ∧ regInRange 31 = true ∧ regInRange 32 = false := by
  decide
theorem test_witness_FormatIFamily : ((build .reject .compat).table.row .andi).layout = .I ∧
    ((build .reject .compat).table.row .lh).layout = .I ∧
    (build .reject .compat).overflow = .reject ∧ regInRange 0 = true ∧
    -2048 ≤ BitVec.toInt (-2048 : Port) ∧ ¬BitVec.toInt (2048 : Port) ≤ 2047 := by decide
theorem test_witness_FormatSFamily : ((build .reject .compat).table.row .sh).layout = .S ∧
    (build .reject .compat).overflow = .reject ∧ regInRange 31 = true ∧
    BitVec.toInt (2047 : Port) ≤ 2047 ∧ ¬-2048 ≤ BitVec.toInt (-2049 : Port) ∧
    immHiS .reject .compat (-2048) = some 64 ∧ immHiS .reject .twos (-2048) = some 64 := by decide
theorem test_witness_FormatSBFamily : ((build .reject .compat).table.row .beq).layout = .SB ∧
    (build .reject .compat).overflow = .reject ∧ regInRange 31 = true ∧
    BitVec.toInt (4095 : Port) ≤ 4095 ∧ BitVec.toInt (-4096 : Port) = -4096 ∧
    (encodeBlock (build .reject .compat) ⟨6, 1, 2, -4095⟩).err = 0 ∧
    (encodeBlock (build .reject .compat) ⟨6, 1, 2, -4096⟩).err = 2 := by decide
theorem test_witness_MultiplexerDrivesFormatAndShape :
    (⟨7, 0, 0, 0⟩ : Ports).mnSel = 7 ∧ (⟨6, 0, 0, 0⟩ : Ports).mnSel ≠ 7 ∧
    (⟨0, 0, 0, 0⟩ : Ports).mnSel ≠ 7 ∧
    encodeBlock (build .reject .compat) ⟨6, 32, 0, 0⟩ = ⟨0, 2, 3, 1⟩ := by decide
theorem test_witness_UnknownMnemonicIsReported :
    (presenting Build.hardware ⟨7, 99, -5, 70000⟩).presented = ⟨7, 99, -5, 70000⟩ :: [] ∧
    (reading Build.hardware ["loop:", "x"]).presented = [] ∧
    (reading Build.hardware ["loop:", "x"]).host.phase =
      .reading ("loop:".toList :: ["x".toList]) ∧
    tokenize "loop:".toList = some ("loop:".toList, []) ∧
    Mnemonic.all.all (fun m => spelling m != "loop:".toList) = true := by decide
theorem test_witness_UnknownMnemonicIsReported_spelling :
    ∀ m, spelling m ≠ "loop:".toList := by
  intro m
  cases m <;> decide
theorem test_witness_ErrorDrivesZeroWord :
    (encodeBlock (build .reject .compat) ⟨2, 32, 1, 1⟩).err = 2 ∧
    (encodeBlock (build .reject .compat) ⟨7, 32, 1, 1⟩).err = 1 := by decide
theorem test_witness_FieldOverflowExactlyOutOfRange :
    (build .reject .compat).table = descriptorTable ∧
    (encodeBlock (build .reject .compat) ⟨6, 1, 2, -4096⟩).err = 2 ∧
    (encodeBlock (build .reject .compat) ⟨6, 1, 2, -4097⟩).err = 2 ∧
    (encodeBlock (build .reject .twos) ⟨6, 1, 2, -4096⟩).err = 0 := by decide
theorem test_witness_TruncateNeverOverflows : (build .truncate .compat).overflow = .truncate ∧
    pack .truncate 32 5 = some 0 ∧ pack .truncate 4095 12 = some 4095 ∧
    pack .reject 32 5 = none ∧ pack .reject (-1) 5 = some 31 := by decide
theorem test_witness_ErrorPriority :
    tokenize "andi x5,x6,ten".toList = some (spelling .andi, "x5,x6,ten".toList) ∧
    parseOperands .registerImmediate "x5,x6,ten".toList = none ∧
    tokenize "andi x31,x0,2048".toList = some (spelling .andi, "x31,x0,2048".toList) ∧
    parseOperands .registerImmediate "x31,x0,2048".toList = some (31, 0, 2048) ∧
    parseOperands .registerImmediate "x31,x0,2047".toList = some (31, 0, 2047) ∧
    (Build.hardware.table.row .andi).shape = .registerImmediate ∧
    Build.hardware.overflow = .reject ∧
    tokenize "loop: ?".toList = some ("loop:".toList, "?".toList) := by decide
theorem test_witness_ErrorPriority_values :
    valuesFit .compat .I (31, 0, 2047) ∧ ¬valuesFit .compat .I (31, 0, 2048) ∧
    ¬valuesFit .compat .I (32, 0, 2047) ∧ valuesFit .twos .SB (1, 2, -4096) ∧
    ¬valuesFit .compat .SB (1, 2, -4096) ∧ valuesFit .compat (.R 0) (31, 31, 31) ∧
    ¬valuesFit .compat .S (1, 2, -2049) := by
  simp [valuesFit]
theorem test_error_priority_diagnostics :
    assembleLine Build.hardware "xor x99,ten".toList 4 = .diag 4 .unknownMnemonic ∧
    assembleLine Build.hardware "or x99,ten".toList 5 = .diag 5 .malformedOperand ∧
    assembleLine Build.hardware "or x99,x1,x2".toList 6 = .diag 6 .fieldOverflow := by decide
theorem test_witness_ShiftsOfTheTwoModes : arsCompat 40 5 = 1 ∧ arsTwos 40 5 = 1 ∧
    arsCompat (-33) 5 = 1 ∧ arsTwos (-33) 5 = -2 ∧ arsCompat 0 5 = 0 ∧ arsCompat (-1) 5 = 0 ∧
    arsTwos (-1) 5 = -1 := by decide
theorem test_witness_BandIsThePortAnd : (0b11111 : Nat) < 2 ^ 32 ∧ band (-1) 0b11111 = 31 ∧
    band (-4) 0b11110 = 28 ∧ band (-4) (2 ^ 11) = 2048 := by decide
theorem test_witness_RegisterFieldRoundTrip : packReg .reject 0 = some 0 ∧
    packReg .reject 31 = some 31 := by decide
theorem test_witness_StoreUpperFieldByMode : (-2048 : Int) ≤ -2048 ∧ (2047 : Int) ≤ 2047 ∧
    immHiS .reject .compat (-2048) = some 64 ∧ immHiS .reject .compat 2047 = some 63 ∧
    immHiS .reject .twos (-1) = some 127 ∧ immHiS .reject .compat (-1) = some 0 := by decide
theorem test_witness_BranchUpperFieldCompat : immHiSB .reject .compat 4095 = some 63 ∧
    immHiSB .reject .compat (-2080) = some 1 ∧ immHiValueSB .compat (-4096) = 128 := by decide
theorem test_witness_BranchUpperFieldTwos : immHiSB .reject .twos (-4096) = some 64 ∧
    immHiSB .reject .twos 4095 = some 63 := by decide
theorem test_witness_StoreWordCarriesImmediate :
    ((build .reject .compat).table.row .sh).layout = .S ∧
    BitVec.toInt (-2048 : Port) = -2048 ∧ BitVec.toInt (-2047 : Port) % 32 ≠ 0 ∧
    (encodeBlock (build .reject .compat) ⟨1, 2, 3, -2048⟩).err = 0 ∧
    encodeBlock (build .reject .compat) ⟨1, 2, 3, -2047⟩ =
      encodeBlock (build .reject .compat) ⟨1, 2, 3, 2017⟩ ∧
    (encodeBlock (build .reject .twos) ⟨1, 2, 3, 2047⟩).err = 0 := by decide
theorem test_witness_BranchWordCarriesOffset :
    ((build .reject .twos).table.row .beq).layout = .SB ∧ (build .reject .twos).split = .twos ∧
    -4096 ≤ BitVec.toInt (-4096 : Port) ∧ BitVec.toInt (4095 : Port) ≤ 4095 ∧
    encodeBlock (build .reject .twos) ⟨6, 1, 2, -4096⟩ = ⟨0x80208063, 0, 3, 1⟩ ∧
    encodeBlock (build .reject .twos) ⟨6, 1, 2, 4095⟩ = ⟨0x7E208FE3, 0, 3, 1⟩ := by decide
theorem test_witness_OddBranchOffsetsAccepted :
    ((build .reject .compat).table.row .beq).layout = .SB ∧ regInRange 1 = true ∧
    regInRange 2 = true ∧ BitVec.toInt (4095 : Port) % 2 = 1 ∧
    BitVec.toInt (-4095 : Port) % 2 = 1 ∧ (build .reject .twos).split = .twos ∧
    encodeBlock (build .reject .compat) ⟨6, 1, 2, 7⟩ =
      encodeBlock (build .reject .compat) ⟨6, 1, 2, 6⟩ := by decide
theorem test_witness_BranchWordInCompatMode :
    ((build .reject .compat).table.row .beq).layout = .SB ∧
    (build .reject .compat).split = .compat ∧ 0 ≤ BitVec.toInt (4095 : Port) ∧
    -4096 < BitVec.toInt (-4095 : Port) ∧
    (encodeBlock (build .reject .compat) ⟨6, 1, 2, -4095⟩).err = 0 ∧
    (encodeBlock (build .reject .compat) ⟨6, 1, 2, 4095⟩).err = 0 := by decide
theorem test_witness_CompatNegativeOffsetReadsPositive :
    (build .reject .compat).table = descriptorTable ∧ (build .reject .compat).split = .compat ∧
    -4096 ≤ BitVec.toInt (-4 : Port) ∧ BitVec.toInt (-4 : Port) < 0 ∧
    (encodeBlock (build .reject .compat) ⟨6, 1, 2, -4⟩).err = 0 := by decide
theorem test_witness_BranchOffsetProperties :
    ((build .reject .twos).table.row .beq).layout = .SB ∧
    encodeBlock (build .reject .twos) ⟨6, 31, 17, 0⟩ = ⟨0x011F8063, 0, 3, 1⟩ ∧
    encodeBlock (build .reject .twos) ⟨6, 1, 2, -4⟩ = ⟨0xFE208EE3, 0, 3, 1⟩ ∧
    encodeBlock (build .reject .twos) ⟨6, 1, 2, 2048⟩ = ⟨0x002080E3, 0, 3, 1⟩ ∧
    encodeBlock (build .reject .compat) ⟨6, 1, 2, -4⟩ = ⟨0x00208EE3, 0, 3, 1⟩ := by decide
theorem test_witness_BuiltWordMatchesExactlyOneRow :
    (build .reject .compat).table = descriptorTable ∧
    (encodeBlock (build .reject .compat) ⟨7, 0, 0, 0⟩).err = 1 ∧
    (encodeBlock (build .reject .compat) ⟨2, 1, 2, 3⟩).err = 0 := by decide
theorem test_witness_BlockRefinesBitLayout :
    (build .reject .compat).table = descriptorTable ∧
    Instr.wellFormed (.beq 1 2 (-4096)) = true ∧ isCompatMinimum (.beq 1 2 (-4096)) = true ∧
    Instr.wellFormed (.beq 1 2 (-4095)) = true ∧ isCompatMinimum (.beq 1 2 (-4095)) = false := by
  decide
theorem test_witness_DecodeInvertsEncodeWord :
    Instr.wellFormed (.sh 31 0 (-2048)) = true ∧ recoverable .compat (.sh 31 0 (-2048)) ∧
    Instr.wellFormed (.beq 1 2 (-4096)) = true ∧ recoverable .twos (.beq 1 2 (-4096)) :=
  ⟨by decide, fun _ => .inr (by decide), by decide, by decide, fun h => nomatch h⟩
theorem test_witness_DecodedWordIsRebuilt : (build .reject .compat).table = descriptorTable ∧
    (decodeWord .compat descriptorTable 0x7E208FE3).toOption = some (.beq 1 2 4094) := by decide
theorem test_witness_EveryBuiltWordDecodes : (build .reject .compat).table = descriptorTable ∧
    (build .reject .compat).overflow = .reject ∧
    (encodeBlock (build .reject .compat) ⟨6, 1, 2, -4⟩).err = 0 := by decide
theorem test_witness_PolicyOnlyChangesRejectedRequests :
    (encodeBlock (build .reject .compat) ⟨0, 7, 8, 2047⟩).err ≠ 2 ∧
    (encodeBlock (build .reject .compat) ⟨7, 7, 8, 2047⟩).err ≠ 2 := by decide
theorem test_witness_SplitModeOnlyChangesNegativeImmediates :
    ((build .reject .compat).table.row .sh).layout = .S ∧ 0 ≤ BitVec.toInt (4095 : Port) ∧
    BitVec.toInt (4095 : Port) ≤ 4095 ∧ ((build .reject .compat).table.row .lh).layout = .I := by
  decide
theorem test_witness_StepKeepsOutputsCoherent : State.reset.coherent ∧
    (after (step State.reset)).isSome = true := ⟨rfl, by decide⟩
theorem test_witness_StepKeepsRecordSound :
    (reading Build.hardware ["sub x1,x2,x3"]).recordSound ∧
    (after (step (reading Build.hardware ["sub x1,x2,x3"]))).isSome = true :=
  ⟨⟨["sub x1,x2,x3".toList], rfl, by decide, rfl, rfl, rfl⟩, by decide⟩
theorem test_witness_RecordIndependentOfHistory :
    let s := reading Build.hardware ["sub x1,x2,x3"]
    let u := s.drive ⟨7, 1, 1, 1⟩
    s.build = u.build ∧ s.host = u.host ∧ s.presented = u.presented ∧ s.outputs ≠ u.outputs := by
  decide
theorem test_witness_StepNeverChangesBuild :
    step State.reset = .next (openPaths State.reset) := rfl
theorem test_witness_LineStepFollowsAssembleLine :
    let s := reading Build.hardware ["or x32,x1,x2"]
    s.presented = [] ∧ s.host.phase = .reading ("or x32,x1,x2".toList :: []) ∧
    translateLine s.build "or x32,x1,x2".toList = .request (.or 32 1 2) ∧
    (encodeBlock s.build (encodePorts (.or 32 1 2))).err = 2 ∧
    translateLine s.build "or x31,x1,x2".toList = .request (.or 31 1 2) ∧
    (encodeBlock s.build (encodePorts (.or 31 1 2))).err = 0 ∧
    (hostOf (step s)).map HostState.diagnostics = some [(1, .fieldOverflow)] := by decide
theorem test_witness_RunTranscribesEveryLine :
    let s := reading Build.hardware ["", "beq x1, x2, 8"]
    s.presented = [] ∧ s.host.phase = .reading ["".toList, "beq x1, x2, 8".toList] ∧
    (reading Build.hardware []).host.phase = .reading [] := by decide
theorem test_witness_SourceLineRoundTrip : (build .reject .compat).table = descriptorTable ∧
    writable (.sh 6 2147483647 (-2147483648)) ∧
    sourceLine (.sh 6 2147483647 (-2147483648)) = "sh x2147483647,-2147483648(x6)".toList :=
  ⟨rfl, ⟨by decide, by decide⟩, by decide⟩
theorem test_witness_TokenizerFollowsWhitespaceRule :
    " \t\n".toList.all isSpace = true ∧ "\x0b\x0c\r".toList.all isSpace = true ∧
    "sub".toList ≠ [] ∧ "sub".toList.any isSpace = false ∧ isSpace '\t' = true ∧
    tokenize "sub x1, x2, x3".toList = some ("sub".toList, "x1,x2,x3".toList) := by decide
theorem test_witness_WrongFormIsMalformed :
    (splitOnChar ',' "x1,x2".toList).length ≠ 3 ∧
    (splitOnChar ',' "x1,x2,x3,x4".toList).length ≠ 3 ∧
    (splitOnChar ',' "x1".toList).length ≠ 2 ∧ "8x6".toList.count '(' ≠ 1 ∧
    "8((x6)".toList.count '(' ≠ 1 ∧ "8(x6))".toList.count ')' ≠ 1 ∧
    "8(x6)1".toList.getLast? ≠ some ')' ∧
    tokenize "sub".toList = some (spelling .sub, []) := by decide
theorem test_witness_WrongFormIsMalformed_tokens :
    ¬isRegisterToken [] ∧ ¬isImmediateToken [] ∧ isRegisterToken ['x', '9'] ∧
    isImmediateToken ['-', '4'] ∧ isOffsetToken "8(x6)".toList ∧
    isOperandText .registerOffset "x5,8(x6)".toList ∧ ¬isOperandText .registerList [] := by
  have digit : ∀ c, isDecimalDigit c = true → isDigits [c] := fun c h =>
    (isDigits_iff [c]).mpr ⟨by simp, by simp [h]⟩
  have h6 : isRegisterToken ['x', '6'] := ⟨'x', ['6'], rfl, digit _ (by decide)⟩
  have h8 : isOffsetToken "8(x6)".toList :=
    ⟨['8'], ['x', '6'], by decide, by decide, by decide, .inl (digit _ (by decide)), h6⟩
  refine ⟨?_, ?_, ⟨'x', ['9'], rfl, digit _ (by decide)⟩,
    .inr ⟨['4'], digit _ (by decide), .inl rfl⟩, h8,
    ⟨['x', '5'], "8(x6)".toList, by decide, by decide, ⟨'x', ['5'], rfl, digit _ (by decide)⟩, h8⟩,
    ?_⟩
  · rintro ⟨c, ds, h, -⟩
    cases h
  · rintro (⟨h, -⟩ | ⟨ds, -, h | h⟩)
    · exact h rfl
    · cases h
    · cases h
  · rintro ⟨t, u, v, h, -⟩
    simp at h
theorem test_host_offset_parentheses :
    [("lh x5,8(x6)1", 1), ("lh x5,8((x6)", 2), ("lh x5,8(x6))", 3), ("lh x5,8)x6(", 4),
      ("andi x1,x2,-", 5), ("sub", 6)].all (fun l =>
        assembleLine Build.hardware l.1.toList l.2 == .diag l.2 .malformedOperand) = true := by
  decide
theorem test_witness_ParsedValuesReachTheirPorts :
    (build .reject .compat).table = descriptorTable ∧
    parseOperands .registerList "x1,x2,x2147483648".toList = some (1, 2, 2147483648) ∧
    parseOperands .registerList "x1,x2,x3".toList = some (1, 2, 3) ∧
    parseOperands .registerImmediate "x1,x2,-2147483648".toList = some (1, 2, -2147483648) ∧
    parseOperands .registerImmediate "x1,x2,-2147483649".toList = some (1, 2, -2147483649) ∧
    parseOperands .registerOffset "x9,12(x6)".toList = some (9, 12, 6) ∧
    parseOperands .registerOffset "x9,2147483648(x6)".toList = some (9, 2147483648, 6) := by decide
theorem test_witness_RunOpensAndEnds :
    let s := State.reset
    let u := { s with host := { s.host with command := ⟨[], some ['o']⟩, outputOpens := false } }
    let v := reading Build.hardware []
    let w := v.diagnose .unknownMnemonic
    (s.presented = [] ∧ s.host.phase = .closed ∧ s.host.input = some [] ∧
      s.host.command.outputPath = none) ∧
    (u.presented = [] ∧ u.host.phase = .closed ∧ u.host.command.outputPath ≠ none ∧
      u.host.outputOpens = false) ∧
    (v.presented = [] ∧ v.host.phase = .reading [] ∧ v.host.diagnostics = []) ∧
    (w.presented = [] ∧ w.host.phase = .reading [] ∧ w.host.diagnostics ≠ []) := by decide

end Sys2Proof.Tests
end

section
/-! PROOFS of the statements about the decoder multiplexer and the field encoder
(30_encoding.md R60, R63, R70, R75, R76). -/

namespace Sys2Proof

/-- Every selector but 7 is a mnemonic's (30_encoding.md R75). -/
theorem Mnemonic.exists_selector_eq {sel : BitVec 3} (h : sel ≠ 7) :
    ∃ m : Mnemonic, m.selector = sel := by
  cases hm : Mnemonic.ofSelector sel with
  | none => exact absurd (Mnemonic.ofSelector_eq_none_iff.mp hm) h
  | some m => exact ⟨m, Mnemonic.selector_of_ofSelector hm⟩

/-- The rows stand in selector order (30_encoding.md R74). -/
@[simp] theorem DescriptorTable.rows_selector (t : DescriptorTable) (m : Mnemonic) :
    t.rows[m.selector.toNat]? = some (t.row m) := by cases m <;> rfl

namespace Machine

/-! ### The outputs of a selected row -/

@[simp] theorem descriptorOutputs_fmt (d : Descriptor) (word : Option Word) :
    (descriptorOutputs d word).fmt = fmtCode d.layout := by cases word <;> rfl

@[simp] theorem descriptorOutputs_shape (d : Descriptor) (word : Option Word) :
    (descriptorOutputs d word).shape = shapeCode d.shape := by cases word <;> rfl

theorem descriptorOutputs_err_ne_one (d : Descriptor) (word : Option Word) :
    (descriptorOutputs d word).err ≠ 1 := by
  cases word with
  | none => exact (by decide : errCode .fieldOverflow ≠ 1)
  | some w => exact (by decide : errNone ≠ 1)

/-- Settles O19: a selector other than 7 is some mnemonic's, so `Encode` answers the outputs of that
mnemonic's row. -/
theorem multiplexerDrivesFormatAndShape : Obligations.MultiplexerDrivesFormatAndShape := by
  rintro b ⟨sel, x, y, z⟩
  constructor
  · rintro (rfl : sel = 7)
    rw [encodeBlock_unassigned]
    exact ⟨rfl, rfl, rfl⟩
  · intro (hsel : sel ≠ 7)
    obtain ⟨m, rfl⟩ := Mnemonic.exists_selector_eq hsel
    refine ⟨b.table.row m, DescriptorTable.rows_selector b.table m, ?_⟩
    rw [encodeBlock_selector, descriptorOutputs_fmt, descriptorOutputs_shape]
    refine ⟨descriptorOutputs_err_ne_one _ _, ?_, ?_⟩
    · cases (b.table.row m).layout <;> rfl
    · cases (b.table.row m).shape <;> rfl

/-! ### Under `truncate` nothing overflows -/

theorem natCast_lowBits (v : Int) (w : Nat) : (lowBits v w : Int) = v % 2 ^ w := by
  rw [lowBits, Int.toNat_of_nonneg (Int.emod_nonneg v (by positivity))]
  norm_cast

theorem checkReg_truncate (r : Int) : checkReg .truncate r = some () := by simp [checkReg]

theorem checkImm_truncate (v lo hi : Int) : checkImm .truncate v lo hi = some () := by
  simp [checkImm]

/-- What the four `assemble…_cases` lemmas say of an assembler's answer with no word: the assembler's
policy is `reject`. -/
theorem overflow_eq_reject_of_cases {policy : OverflowPolicy} {accepts rejects : Prop}
    {answer : Option Word} {w : Word}
    (hcases : ((policy = .reject → accepts) ∧ answer = some w) ∨
      ((policy = .reject ∧ rejects) ∧ answer = none))
    (h : answer = none) : policy = .reject := by
  obtain ⟨-, hw⟩ | ⟨⟨hp, -⟩, -⟩ := hcases
  · simp [hw] at h
  · exact hp

/-- Every format's FieldOverflow needs the policy `reject` (30_encoding.md R63). -/
theorem overflow_eq_reject_of_assemble_eq_none {build : Build} {d : Descriptor} {a b c : Port}
    (h : assemble build d (sval a) (sval b) (sval c) = none) : build.overflow = .reject := by
  unfold assemble at h
  split at h
  · exact overflow_eq_reject_of_cases (assembleR_cases _ _ _ a b c) h
  · exact overflow_eq_reject_of_cases (assembleI_cases _ _ a b c) h
  · exact overflow_eq_reject_of_cases (assembleS_cases _ _ _ a b c) h
  · exact overflow_eq_reject_of_cases (assembleSB_cases _ _ _ a b c) h

/-- `Encode` reports FieldOverflow only under `reject` (30_encoding.md R63). -/
theorem overflow_eq_reject_of_encodeBlock_err_eq_two {build : Build} {p : Ports}
    (h : (encodeBlock build p).err = 2) : build.overflow = .reject := by
  obtain ⟨-, he⟩ | ⟨m, -, ha, -⟩ | ⟨m, w, -, -, he⟩ := encodeBlock_cases build p
  · rw [he] at h
    exact absurd h (by decide : errCode .unknownMnemonic ≠ 2)
  · exact overflow_eq_reject_of_assemble_eq_none ha
  · rw [he] at h
    exact absurd h (by decide : errNone ≠ 2)

/-- Settles O23: the checks and `pack` by their definitions, `Encode` because its FieldOverflow needs
`reject`. -/
theorem truncateNeverOverflows : Obligations.TruncateNeverOverflows := by
  refine ⟨checkReg_truncate, checkImm_truncate, ?_, ?_⟩
  · exact fun v w => ⟨lowBits v w, pack_truncate v w, natCast_lowBits v w⟩
  · intro b p htruncate herr
    have hreject := overflow_eq_reject_of_encodeBlock_err_eq_two herr
    simp [htruncate] at hreject

/-! ### Field values -/

/-- Settles O26, by `band_sval`: a mask below 2^32 is its own 32-bit value. -/
theorem bandIsThePortAnd : Obligations.BandIsThePortAnd := by
  intro p m hm
  rw [band_sval, BitVec.toNat_and, BitVec.toNat_ofNat, Nat.mod_eq_of_lt hm]

/-- Settles O27: an index in [0, 31] is below 2^5, so `pack` keeps it whole. -/
theorem registerFieldRoundTrip : Obligations.RegisterFieldRoundTrip := by
  refine ⟨fun _ _ => rfl, fun policy r hr => ?_⟩
  have hlt : r < 2 ^ 5 := by omega
  exact pack_natCast hlt

end Machine

end Sys2Proof
end

section
/-! PROOFS of the statements about format R (40_r_format.md R100, R101). -/

namespace Sys2Proof

/-! ### The shape of a row -/

/-- Every row of a well-formed table has a shape its format allows (30_encoding.md R73). -/
theorem DescriptorTable.allowsShape_of_wellFormed {t : DescriptorTable} (h : t.wellFormed = true)
    (m : Mnemonic) : (t.row m).layout.allowsShape (t.row m).shape = true := by
  have hmem : t.row m ∈ t.rows := List.mem_of_getElem? (DescriptorTable.rows_selector t m)
  rw [DescriptorTable.wellFormed, Bool.and_eq_true, List.all_eq_true] at h
  obtain ⟨hshapes, -⟩ := h
  exact hshapes _ hmem

/-- Format R has one shape (30_encoding.md R73). -/
theorem Layout.allowsShape_R_iff {f7 : BitVec 7} {shape : Shape} :
    (Layout.R f7).allowsShape shape = true ↔ shape = .registerList := by
  cases shape <;> simp [Layout.allowsShape]

namespace Machine

/-! ### `Encode` and `exec` of a format R row -/

/-- The format assembler's arm of format R (30_encoding.md R77). -/
theorem assemble_formatR {d : Descriptor} {f7 : BitVec 7} (h : d.layout = .R f7) (b : Build)
    (rd rs1 rs2 : Int) : assemble b d rd rs1 rs2 = assembleR b.overflow d f7 rd rs1 rs2 := by
  rw [assemble, h]

/-- `Encode` of a row of format R: the word, or FieldOverflow (40_r_format.md R100). -/
theorem encodeBlock_formatR {b : Build} {m : Mnemonic} {f7 opcode : BitVec 7} {funct3 : BitVec 3}
    (hrow : b.table.row m = ⟨.R f7, opcode, funct3, .registerList⟩) (rd rs1 rs2 : Port) :
    ((b.overflow = .reject →
        regInRange rd = true ∧ regInRange rs1 = true ∧ regInRange rs2 = true) →
      encodeBlock b ⟨m.selector, rd, rs1, rs2⟩ =
        ⟨f7 ++ regBits rs2 ++ regBits rs1 ++ funct3 ++ regBits rd ++ opcode, 0, 0, 0⟩) ∧
    (b.overflow = .reject →
      ¬(regInRange rd = true ∧ regInRange rs1 = true ∧ regInRange rs2 = true) →
      encodeBlock b ⟨m.selector, rd, rs1, rs2⟩ = ⟨0, 2, 0, 0⟩) := by
  rw [encodeBlock_selector, hrow, assemble_formatR rfl]
  obtain ⟨hfit, hword⟩ | ⟨⟨hreject, hout⟩, hnone⟩ :=
    assembleR_cases b.overflow ⟨.R f7, opcode, funct3, .registerList⟩ f7 rd rs1 rs2
  · rw [hword]
    exact ⟨fun _ => rfl, fun hreject hout => absurd (hfit hreject) hout⟩
  · rw [hnone]
    exact ⟨fun hfit => absurd (hfit hreject) hout, fun _ _ => rfl⟩

/-- An instruction changes nothing but the inputs present and the outputs sampled for them. -/
theorem exec_of_encodeBlock_eq {i : Instr} {s : State} {o : Outputs}
    (h : encodeBlock s.build (encodePorts i) = o) :
    exec i s = .next { s with ports := encodePorts i, outputs := o } := by
  rw [exec_eq, State.drive, h]

/-- Settles O7: the row of `sub` is of format R, and `exec` shows what `Encode` answers. -/
theorem subBuildsItsWord : Obligations.SubBuildsItsWord := by
  intro rd rs1 rs2 s htable
  have hrow : s.build.table.row .sub =
      ⟨.R 0b0100000#7, 0b0110011#7, 0b000#3, .registerList⟩ := by rw [htable]; rfl
  obtain ⟨hword, hoverflow⟩ := encodeBlock_formatR hrow rd rs1 rs2
  exact ⟨fun hfit => exec_of_encodeBlock_eq (hword hfit),
    fun hreject hout => exec_of_encodeBlock_eq (hoverflow hreject hout)⟩

/-- Settles O15: a well-formed table leaves a row of format R no shape but the register list. -/
theorem formatRFamily : Obligations.FormatRFamily := by
  intro b m f7 rd rs1 rs2 hwf hlayout
  have hallows := DescriptorTable.allowsShape_of_wellFormed hwf m
  rw [hlayout, Layout.allowsShape_R_iff] at hallows
  have hrow : b.table.row m =
      ⟨.R f7, (b.table.row m).opcode, (b.table.row m).funct3, .registerList⟩ := by
    rw [← hlayout, ← hallows]
  exact encodeBlock_formatR hrow rd rs1 rs2

end Machine

end Sys2Proof
end

section
/-! PROOFS of the statements about format I (41_i_format.md R110, R112). -/

namespace Sys2Proof.Machine

/-- The immediate range of format I as the statements write it (30_encoding.md R62). -/
theorem imm12InRange_iff_toInt (imm : Port) :
    imm12InRange imm = true ↔ -2048 ≤ imm.toInt ∧ imm.toInt ≤ 2047 := by
  rw [imm12InRange_iff, sval_eq_toInt]

/-- The format assembler's arm of format I, which has no split mode (30_encoding.md R77). -/
theorem assemble_formatI {d : Descriptor} (h : d.layout = .I) (b : Build) (rd rs1 imm : Int) :
    assemble b d rd rs1 imm = assembleI b.overflow d rd rs1 imm := by
  rw [assemble, h]

/-- `Encode` of a row of format I: the word, or FieldOverflow (41_i_format.md R110). -/
theorem encodeBlock_formatI {b : Build} {m : Mnemonic} {opcode : BitVec 7} {funct3 : BitVec 3}
    {shape : Shape} (hrow : b.table.row m = ⟨.I, opcode, funct3, shape⟩) (rd rs1 imm : Port) :
    ((b.overflow = .reject →
        regInRange rd = true ∧ regInRange rs1 = true ∧ -2048 ≤ imm.toInt ∧ imm.toInt ≤ 2047) →
      encodeBlock b ⟨m.selector, rd, rs1, imm⟩ =
        ⟨imm.extractLsb' 0 12 ++ regBits rs1 ++ funct3 ++ regBits rd ++ opcode, 0, 1,
          shapeCode shape⟩) ∧
    (b.overflow = .reject →
      ¬(regInRange rd = true ∧ regInRange rs1 = true ∧ -2048 ≤ imm.toInt ∧ imm.toInt ≤ 2047) →
      encodeBlock b ⟨m.selector, rd, rs1, imm⟩ = ⟨0, 2, 1, shapeCode shape⟩) := by
  rw [encodeBlock_selector, hrow, assemble_formatI rfl, ← imm12InRange_iff_toInt]
  obtain ⟨hfit, hword⟩ | ⟨⟨hreject, hout⟩, hnone⟩ :=
    assembleI_cases b.overflow ⟨.I, opcode, funct3, shape⟩ rd rs1 imm
  · rw [hword]
    exact ⟨fun _ => rfl, fun hreject hout => absurd (hfit hreject) hout⟩
  · rw [hnone]
    exact ⟨fun hfit => absurd (hfit hreject) hout, fun _ _ => rfl⟩

/-- Settles O11: the row of `andi` is of format I, and `exec` shows what `Encode` answers. -/
theorem andiBuildsItsWord : Obligations.AndiBuildsItsWord := by
  intro rd rs1 imm s htable
  have hrow : s.build.table.row .andi =
      ⟨.I, 0b0010011#7, 0b111#3, .registerImmediate⟩ := by rw [htable]; rfl
  obtain ⟨hword, hoverflow⟩ := encodeBlock_formatI hrow rd rs1 imm
  exact ⟨fun hfit => exec_of_encodeBlock_eq (hword hfit),
    fun hreject hout => exec_of_encodeBlock_eq (hoverflow hreject hout)⟩

/-- Settles O16: the assembler's arm of format I reads the policy and no split mode, and the row keeps
its own shape. -/
theorem formatIFamily : Obligations.FormatIFamily := by
  intro b m rd rs1 imm hlayout
  have hrow : b.table.row m =
      ⟨.I, (b.table.row m).opcode, (b.table.row m).funct3, (b.table.row m).shape⟩ := by
    rw [← hlayout]
  exact encodeBlock_formatI hrow rd rs1 imm

end Sys2Proof.Machine
end

section
/-! PROOFS of the statement about format S (42_s_format.md R120). -/

namespace Sys2Proof.Machine

/-- Cutting a word of six fields at the field positions gives the fields back (30_encoding.md R51,
R53, R54). -/
theorem extractLsb'_six (x : BitVec 7) (a b : BitVec 5) (f : BitVec 3) (c : BitVec 5)
    (o : BitVec 7) :
    (x ++ a ++ b ++ f ++ c ++ o).extractLsb' 25 7 = x ∧
    (x ++ a ++ b ++ f ++ c ++ o).extractLsb' 20 5 = a ∧
    (x ++ a ++ b ++ f ++ c ++ o).extractLsb' 15 5 = b ∧
    (x ++ a ++ b ++ f ++ c ++ o).extractLsb' 12 3 = f ∧
    (x ++ a ++ b ++ f ++ c ++ o).extractLsb' 7 5 = c ∧
    (x ++ a ++ b ++ f ++ c ++ o).extractLsb' 0 7 = o := by
  simp only [BitVec.extractLsb'_append_eq_of_le, BitVec.extractLsb'_append_eq_right,
    BitVec.extractLsb'_eq_self, Nat.reduceLeDiff, Nat.reduceSub, and_self]

/-- The value of S imm_lo is the port's low five bits (30_encoding.md R65). -/
theorem toNat_immLoBitsS (imm : Port) : (immLoBitsS imm).toNat = band imm.toInt 0b11111 := by
  rw [← sval_eq_toInt, band_sval, immLoBitsS, BitVec.extractLsb'_toNat, Nat.shiftRight_zero]
  exact (Nat.and_two_pow_sub_one_eq_mod imm.toNat 5).symm

/-- The format assembler's arm of format S (30_encoding.md R77). -/
theorem assemble_formatS {d : Descriptor} (h : d.layout = .S) (b : Build) (rs1 rs2 imm : Int) :
    assemble b d rs1 rs2 imm = assembleS b.overflow b.split d rs1 rs2 imm := by
  rw [assemble, h]

/-- `Encode` of a row of format S: the word, or FieldOverflow (42_s_format.md R120). -/
theorem encodeBlock_formatS {b : Build} {m : Mnemonic} {opcode : BitVec 7} {funct3 : BitVec 3}
    {shape : Shape} (hrow : b.table.row m = ⟨.S, opcode, funct3, shape⟩) (rs1 rs2 imm : Port) :
    ((b.overflow = .reject →
        regInRange rs1 = true ∧ regInRange rs2 = true ∧ -2048 ≤ imm.toInt ∧ imm.toInt ≤ 2047) →
      encodeBlock b ⟨m.selector, rs1, rs2, imm⟩ =
        ⟨immHiBitsS b.split imm ++ regBits rs2 ++ regBits rs1 ++ funct3 ++ immLoBitsS imm ++ opcode,
          0, 2, shapeCode shape⟩) ∧
    (b.overflow = .reject →
      ¬(regInRange rs1 = true ∧ regInRange rs2 = true ∧ -2048 ≤ imm.toInt ∧ imm.toInt ≤ 2047) →
      encodeBlock b ⟨m.selector, rs1, rs2, imm⟩ = ⟨0, 2, 2, shapeCode shape⟩) := by
  rw [encodeBlock_selector, hrow, assemble_formatS rfl, ← imm12InRange_iff_toInt]
  obtain ⟨hfit, hword⟩ | ⟨⟨hreject, hout⟩, hnone⟩ :=
    assembleS_cases b.overflow b.split ⟨.S, opcode, funct3, shape⟩ rs1 rs2 imm
  · rw [hword]
    exact ⟨fun _ => rfl, fun hreject hout => absurd (hfit hreject) hout⟩
  · rw [hnone]
    exact ⟨fun hfit => absurd (hfit hreject) hout, fun _ _ => rfl⟩

/-- Settles O17: the word of a format S row, cut into its six fields; the two immediate fields are the
packed expressions of the immediate's value. -/
theorem formatSFamily : Obligations.FormatSFamily := by
  intro b m rs1 rs2 imm hlayout
  have hrow : b.table.row m =
      ⟨.S, (b.table.row m).opcode, (b.table.row m).funct3, (b.table.row m).shape⟩ := by
    rw [← hlayout]
  obtain ⟨hword, hoverflow⟩ := encodeBlock_formatS hrow rs1 rs2 imm
  refine ⟨fun hfit => ?_, hoverflow⟩
  have himm : b.overflow = .reject → -2048 ≤ sval imm ∧ sval imm ≤ 2047 := by
    intro hreject
    obtain ⟨-, -, hrange⟩ := hfit hreject
    rwa [sval_eq_toInt]
  obtain ⟨hhi, hrs2, hrs1, hfunct3, hlo, hopcode⟩ := extractLsb'_six (immHiBitsS b.split imm)
    (regBits rs2) (regBits rs1) (b.table.row m).funct3 (immLoBitsS imm) (b.table.row m).opcode
  rw [hword hfit]
  refine ⟨rfl, rfl, ?_, hrs2, hrs1, hfunct3, ?_, hopcode⟩
  · rw [← sval_eq_toInt, immHiS_sval b.split himm]
    exact congrArg (some ∘ BitVec.toNat) hhi.symm
  · exact (congrArg BitVec.toNat hlo).trans (toNat_immLoBitsS imm)

end Sys2Proof.Machine
end

section
/-! PROOFS of the statement about format SB (43_sb_format.md R130). -/

namespace Sys2Proof.Machine

/-- The offset range of format SB as the statements write it (30_encoding.md R62). -/
theorem imm13InRange_iff_toInt (imm : Port) :
    imm13InRange imm = true ↔ -4096 ≤ imm.toInt ∧ imm.toInt ≤ 4095 := by
  rw [imm13InRange_iff, sval_eq_toInt]

/-- The format assembler's arm of format SB (30_encoding.md R77). -/
theorem assemble_formatSB {d : Descriptor} (h : d.layout = .SB) (b : Build) (rs1 rs2 imm : Int) :
    assemble b d rs1 rs2 imm = assembleSB b.overflow b.split d rs1 rs2 imm := by
  rw [assemble, h]

/-- `Encode` of a row of format SB: the word, or FieldOverflow (43_sb_format.md R130). -/
theorem encodeBlock_formatSB {b : Build} {m : Mnemonic} {opcode : BitVec 7} {funct3 : BitVec 3}
    {shape : Shape} (hrow : b.table.row m = ⟨.SB, opcode, funct3, shape⟩) (rs1 rs2 imm : Port) :
    ((b.overflow = .reject →
        regInRange rs1 = true ∧ regInRange rs2 = true ∧ -4096 ≤ imm.toInt ∧ imm.toInt ≤ 4095 ∧
        ¬(b.split = .compat ∧ imm.toInt = -4096)) →
      encodeBlock b ⟨m.selector, rs1, rs2, imm⟩ =
        ⟨immHiBitsSB b.split imm ++ regBits rs2 ++ regBits rs1 ++ funct3 ++ immLoBitsSB imm ++
          opcode, 0, 3, shapeCode shape⟩) ∧
    (b.overflow = .reject →
      ¬(regInRange rs1 = true ∧ regInRange rs2 = true ∧ -4096 ≤ imm.toInt ∧ imm.toInt ≤ 4095 ∧
        ¬(b.split = .compat ∧ imm.toInt = -4096)) →
      encodeBlock b ⟨m.selector, rs1, rs2, imm⟩ = ⟨0, 2, 3, shapeCode shape⟩) := by
  rw [encodeBlock_selector, hrow, assemble_formatSB rfl]
  have hcases := assembleSB_cases b.overflow b.split ⟨.SB, opcode, funct3, shape⟩ rs1 rs2 imm
  rw [imm13InRange_iff_toInt, and_assoc (a := -4096 ≤ imm.toInt)] at hcases
  obtain ⟨hfit, hword⟩ | ⟨⟨hreject, hout⟩, hnone⟩ := hcases
  · rw [hword]
    exact ⟨fun _ => rfl, fun hreject hout => absurd (hfit hreject) hout⟩
  · rw [hnone]
    exact ⟨fun hfit => absurd (hfit hreject) hout, fun _ _ => rfl⟩

/-- The packed upper expression of an offset that does not overflow: the range check of R62 leaves
-4096 in `compat` mode, whose upper field is the one that does not fit (30_encoding.md R68, R69). -/
theorem immHiSB_toInt_of_fits {policy : OverflowPolicy} {mode : ImmSplitMode} {imm : Port}
    (h : policy = .reject → -4096 ≤ imm.toInt ∧ imm.toInt ≤ 4095 ∧
      ¬(mode = .compat ∧ imm.toInt = -4096)) :
    immHiSB policy mode imm.toInt = some (immHiBitsSB mode imm).toNat := by
  rw [← sval_eq_toInt] at h ⊢
  have hrange : policy = .reject → -4096 ≤ sval imm ∧ sval imm ≤ 4095 := by
    intro hreject
    obtain ⟨hlow, hhigh, -⟩ := h hreject
    exact ⟨hlow, hhigh⟩
  obtain ⟨hpacked, -⟩ | ⟨-, hreject, hcompat, himm⟩ := immHiSB_sval mode hrange
  · exact hpacked
  · obtain ⟨-, -, hminimum⟩ := h hreject
    exact absurd ⟨hcompat, himm⟩ hminimum

/-- Settles O18: the word of a format SB row, cut into its six fields; the two immediate fields are the
packed expressions of the offset's value. -/
theorem formatSBFamily : Obligations.FormatSBFamily := by
  intro b m rs1 rs2 imm hlayout
  have hrow : b.table.row m =
      ⟨.SB, (b.table.row m).opcode, (b.table.row m).funct3, (b.table.row m).shape⟩ := by
    rw [← hlayout]
  obtain ⟨hword, hoverflow⟩ := encodeBlock_formatSB hrow rs1 rs2 imm
  refine ⟨fun hfit => ?_, hoverflow⟩
  have hhiPacked : immHiSB b.overflow b.split imm.toInt = some (immHiBitsSB b.split imm).toNat := by
    refine immHiSB_toInt_of_fits fun hreject => ?_
    obtain ⟨-, -, himm⟩ := hfit hreject
    exact himm
  have hloPacked : immLoSB b.overflow imm.toInt = some (immLoBitsSB imm).toNat := by
    rw [← sval_eq_toInt, immLoSB_sval]
  obtain ⟨hhi, hrs2, hrs1, hfunct3, hlo, hopcode⟩ := extractLsb'_six (immHiBitsSB b.split imm)
    (regBits rs2) (regBits rs1) (b.table.row m).funct3 (immLoBitsSB imm) (b.table.row m).opcode
  rw [hword hfit]
  refine ⟨rfl, rfl, ?_, hrs2, hrs1, hfunct3, ?_, hopcode⟩
  · exact hhiPacked.trans (congrArg (some ∘ BitVec.toNat) hhi.symm)
  · exact hloPacked.trans (congrArg (some ∘ BitVec.toNat) hlo.symm)

end Sys2Proof.Machine
end

section
/-! PROOFS of the statement about the tokenizer (44_assembler_syntax.md R141). -/

namespace Sys2Proof.Machine

theorem isSpace_iff_mem (c : Char) :
    isSpace c = true ↔ c ∈ [' ', '\t', '\r', '\n', '\x0b', '\x0c'] := by
  simp only [isSpace, Bool.or_eq_true, beq_iff_eq, List.mem_cons, List.not_mem_nil, or_false]
  tauto

/-! ### Stripping -/

/-- `strip` drops whitespace from the front and then from the back. -/
theorem strip_eq_rdropWhile (line : Text) :
    strip line = (line.dropWhile isSpace).rdropWhile isSpace := rfl

theorem strip_append_left {u : Text} (hu : u.all isSpace = true) (line : Text) :
    strip (u ++ line) = strip line := by
  rw [strip, List.dropWhile_append_of_pos (List.all_eq_true.mp hu), ← strip]

theorem strip_of_all_isSpace {u : Text} (hu : u.all isSpace = true) : strip u = [] := by
  simpa [strip] using strip_append_left hu []

theorem strip_append_right (line : Text) {v : Text} (hv : v.all isSpace = true) :
    strip (line ++ v) = strip line := by
  rw [strip, List.dropWhile_append]
  split
  case isTrue hblank =>
    have hline : line.dropWhile isSpace = [] := List.isEmpty_iff.mp hblank
    rw [← strip, strip_of_all_isSpace hv, strip, hline]
    rfl
  case isFalse =>
    have hv' : ∀ c ∈ v.reverse, isSpace c = true := by simpa using hv
    rw [List.reverse_append, List.dropWhile_append_of_pos hv', ← strip]

/-- Stripping a text that begins with no whitespace only takes whitespace off its end. -/
theorem exists_strip_append {c : Char} (hc : isSpace c = false) (t : Text) :
    ∃ v : Text, v.all isSpace = true ∧ strip (c :: t) ++ v = c :: t := by
  have hfront : (c :: t).dropWhile isSpace = c :: t := List.dropWhile_cons_of_neg (by simp [hc])
  refine ⟨(c :: t).rtakeWhile isSpace, List.all_eq_true.mpr fun _ => List.mem_rtakeWhile_imp, ?_⟩
  rw [strip_eq_rdropWhile, hfront, List.rdropWhile_append_rtakeWhile]

/-! ### Splitting -/

theorem splitLine_cons_of_isSpace {c : Char} (hc : isSpace c = true) (t : Text) :
    splitLine (c :: t) = ([], t.filter (fun x => !isSpace x)) := by
  simp [splitLine, hc]

/-- A text without whitespace in front of another joins its mnemonic. -/
theorem splitLine_append_left {mn : Text} (hmn : mn.any isSpace = false) (t : Text) :
    splitLine (mn ++ t) = (mn ++ (splitLine t).1, (splitLine t).2) := by
  have hmn' : ∀ c ∈ mn, (!isSpace c) = true := by simpa using hmn
  rw [splitLine, List.takeWhile_append_of_pos hmn', List.dropWhile_append_of_pos hmn', splitLine]

/-- Whitespace at the end of a line is in neither token. -/
theorem splitLine_append_right (t : Text) {v : Text} (hv : v.all isSpace = true) :
    splitLine (t ++ v) = splitLine t := by
  have hv' : v.filter (fun c => !isSpace c) = [] := by simpa using hv
  induction t with
  | nil =>
    cases v with
    | nil => rfl
    | cons c v =>
      have hc : isSpace c = true := List.all_eq_true.mp hv c List.mem_cons_self
      rw [List.nil_append, splitLine_cons_of_isSpace hc]
      exact congrArg (Prod.mk []) (by simpa [hc] using hv')
  | cons c t ih =>
    cases hc : isSpace c with
    | true =>
      rw [List.cons_append, splitLine_cons_of_isSpace hc, splitLine_cons_of_isSpace hc,
        List.filter_append, hv', List.append_nil]
    | false =>
      have hc' : [c].any isSpace = false := by simpa using hc
      have hcons := splitLine_append_left hc'
      calc
        splitLine ([c] ++ (t ++ v)) = ([c] ++ (splitLine t).1, (splitLine t).2) := by
          rw [hcons, ih]
        _ = splitLine ([c] ++ t) := (hcons t).symm

/-! ### Tokens -/

theorem tokenize_of_all_isSpace {u : Text} (hu : u.all isSpace = true) : tokenize u = none := by
  rw [tokenize, strip_of_all_isSpace hu]

theorem tokenize_append_append {u v : Text} (hu : u.all isSpace = true) (line : Text)
    (hv : v.all isSpace = true) : tokenize (u ++ line ++ v) = tokenize line := by
  rw [tokenize, strip_append_right _ hv, strip_append_left hu, ← tokenize]

theorem assembleLine_of_all_isSpace {u : Text} (hu : u.all isSpace = true) (b : Build) (n : Nat) :
    assembleLine b u n = .skip := by
  rw [assembleLine, translateLine, tokenize_of_all_isSpace hu]

/-- A text that begins with no whitespace is split as it stands: what stripping takes off its end is
in neither token. -/
theorem tokenize_cons_of_not_isSpace {c : Char} (hc : isSpace c = false) (t : Text) :
    tokenize (c :: t) = some (splitLine (c :: t)) := by
  obtain ⟨v, hv, hstrip⟩ := exists_strip_append hc t
  cases hs : strip (c :: t) with
  | nil =>
    rw [hs, List.nil_append] at hstrip
    simp [hstrip, hc] at hv
  | cons d r =>
    rw [tokenize, hs, ← hstrip, splitLine_append_right _ hv, hs]

/-- Settles O54: `tokenize` depends on a line through its stripped text alone, and a line that begins
with a mnemonic is split as it stands. -/
theorem tokenizerFollowsWhitespaceRule : Obligations.TokenizerFollowsWhitespaceRule := by
  refine ⟨isSpace_iff_mem, fun u line v hu hv => tokenize_append_append hu line hv,
    fun u hu => ⟨tokenize_of_all_isSpace hu, assembleLine_of_all_isSpace hu⟩, ?_⟩
  intro mn ops c hne hmn hc
  obtain ⟨a, mn, rfl⟩ := List.exists_cons_of_ne_nil hne
  have ha : isSpace a = false :=
    Bool.eq_false_iff.mpr (List.any_eq_false.mp hmn a List.mem_cons_self)
  constructor
  · rw [tokenize_cons_of_not_isSpace ha]
    simpa [splitLine] using splitLine_append_left hmn []
  · rw [List.cons_append, tokenize_cons_of_not_isSpace ha, ← List.cons_append,
      splitLine_append_left hmn, splitLine_cons_of_isSpace hc, List.append_nil]

end Sys2Proof.Machine
end

section
/-! PROOFS of the statements about the errors (60_exceptions.md R162, R164, R165). -/

namespace Sys2Proof.Machine

/-! ### The outputs of an error -/

/-- The error of each of the three answers of `Encode`: none of them is MalformedOperand, and a
FieldOverflow shows the selected row (60_exceptions.md R165). -/
theorem encodeBlock_error_outputs (b : Build) (p : Ports) : (encodeBlock b p).err ≠ 3 ∧
    ((encodeBlock b p).err ≠ 0 → (encodeBlock b p).word = 0) ∧
    ((encodeBlock b p).err = 1 → (encodeBlock b p).fmt = 0 ∧ (encodeBlock b p).shape = 3) ∧
    ((encodeBlock b p).err = 2 → ∃ m, Mnemonic.ofSelector p.mnSel = some m ∧
      (encodeBlock b p).fmt = fmtCode (b.table.row m).layout ∧
      (encodeBlock b p).shape = shapeCode (b.table.row m).shape) := by
  obtain ⟨-, he⟩ | ⟨m, hm, -, he⟩ | ⟨m, w, -, -, he⟩ := encodeBlock_cases b p
  · simp [he, unknownOutputs, raiseError, errCode]
  · simp [he, hm, raiseError, errCode]
  · simp [he, errNone]

/-- Settles O21: the outputs by the three answers of `Encode`, the frame because `exec` is one
evaluation of the block. -/
theorem errorDrivesZeroWord : Obligations.ErrorDrivesZeroWord := by
  refine ⟨encodeBlock_error_outputs, ?_⟩
  intro i s t hexec _
  rw [exec_eq, Host.Outcome.next.injEq] at hexec
  subst hexec
  rfl

/-! ### The values that fit, by format

The operands on the ports, as the assembler's checks read them (30_encoding.md R61, R62). -/

theorem valuesFit_formatR (mode : ImmSplitMode) (f7 : BitVec 7) (a b c : Port) :
    valuesFit mode (.R f7) (sval a, sval b, sval c) ↔
      regInRange a = true ∧ regInRange b = true ∧ regInRange c = true := by
  simp only [valuesFit, regInRange_iff]

theorem valuesFit_formatI (mode : ImmSplitMode) (a b c : Port) :
    valuesFit mode .I (sval a, sval b, sval c) ↔
      regInRange a = true ∧ regInRange b = true ∧ imm12InRange c = true := by
  simp only [valuesFit, regInRange_iff, imm12InRange_iff]

theorem valuesFit_formatS (mode : ImmSplitMode) (a b c : Port) :
    valuesFit mode .S (sval a, sval b, sval c) ↔
      regInRange a = true ∧ regInRange b = true ∧ imm12InRange c = true := by
  simp only [valuesFit, regInRange_iff, imm12InRange_iff]

theorem valuesFit_formatSB (mode : ImmSplitMode) (a b c : Port) :
    valuesFit mode .SB (sval a, sval b, sval c) ↔
      regInRange a = true ∧ regInRange b = true ∧ imm13InRange c = true ∧
        ¬(mode = .compat ∧ c.toInt = -4096) := by
  simp only [valuesFit, regInRange_iff, imm13InRange_iff, ← sval_eq_toInt, and_assoc]

/-- Values that fit a row are within the 32 bits of a port. -/
theorem valuesFit_bounds {mode : ImmSplitMode} {layout : Layout} {v : Int × Int × Int}
    (h : valuesFit mode layout v) :
    (-2147483648 ≤ v.1 ∧ v.1 ≤ 2147483647) ∧ (-2147483648 ≤ v.2.1 ∧ v.2.1 ≤ 2147483647) ∧
      (-2147483648 ≤ v.2.2 ∧ v.2.2 ≤ 2147483647) := by
  cases layout <;> simp only [valuesFit] at h <;> omega

/-! ### When the block raises FieldOverflow -/

/-- What the four `assemble…_cases` lemmas say of an assembler's answer: FieldOverflow is raised
exactly under `reject` on operands that are not accepted. -/
theorem eq_none_iff_of_cases {policy : OverflowPolicy} {accepts : Prop} {answer : Option Word}
    {w : Word}
    (hcases : ((policy = .reject → accepts) ∧ answer = some w) ∨
      ((policy = .reject ∧ ¬accepts) ∧ answer = none)) :
    answer = none ↔ policy = .reject ∧ ¬accepts := by
  obtain ⟨hfit, hword⟩ | ⟨hout, hnone⟩ := hcases
  · rw [hword]
    exact ⟨nofun, fun ⟨hreject, hout⟩ => absurd (hfit hreject) hout⟩
  · exact ⟨fun _ => hout, fun _ => hnone⟩

/-- The assembler raises FieldOverflow exactly under `reject` on values that do not fit
(60_exceptions.md R162). -/
theorem assemble_eq_none_iff (build : Build) (d : Descriptor) (a b c : Port) :
    assemble build d (sval a) (sval b) (sval c) = none ↔
      build.overflow = .reject ∧ ¬valuesFit build.split d.layout (sval a, sval b, sval c) := by
  cases hlayout : d.layout with
  | R f7 =>
    rw [assemble_formatR hlayout, valuesFit_formatR]
    exact eq_none_iff_of_cases (assembleR_cases _ _ _ a b c)
  | I =>
    rw [assemble_formatI hlayout, valuesFit_formatI]
    exact eq_none_iff_of_cases (assembleI_cases _ _ a b c)
  | S =>
    rw [assemble_formatS hlayout, valuesFit_formatS]
    exact eq_none_iff_of_cases (assembleS_cases _ _ _ a b c)
  | SB =>
    rw [assemble_formatSB hlayout, valuesFit_formatSB]
    exact eq_none_iff_of_cases (assembleSB_cases _ _ _ a b c)

theorem descriptorOutputs_err_eq_two_iff (d : Descriptor) (word : Option Word) :
    (descriptorOutputs d word).err = 2 ↔ word = none := by
  cases word with
  | none => exact ⟨fun _ => rfl, fun _ => rfl⟩
  | some w => exact ⟨fun h => absurd h (by decide : errNone ≠ 2), nofun⟩

/-- `Encode` of a row's request raises FieldOverflow exactly under `reject` on operands that do not
fit the row (60_exceptions.md R162). -/
theorem encodeBlock_err_eq_two_iff (build : Build) (m : Mnemonic) (a b c : Port) :
    (encodeBlock build ⟨m.selector, a, b, c⟩).err = 2 ↔
      build.overflow = .reject ∧
        ¬valuesFit build.split (build.table.row m).layout (sval a, sval b, sval c) := by
  rw [encodeBlock_selector, descriptorOutputs_err_eq_two_iff, assemble_eq_none_iff]

/-! ### The three cases of FieldOverflow with this hardware's table -/

theorem isCompatMinimum_iff (i : Instr) :
    isCompatMinimum i = true ↔ ∃ rs1 rs2 imm, i = .beq rs1 rs2 imm ∧ imm.toInt = -4096 := by
  cases i <;> simp [isCompatMinimum]

/-- With the table of R74 the operands fit their row exactly when the instruction is well-formed and
not `beq` with -4096 in `compat` mode. -/
theorem valuesFit_descriptorTable (mode : ImmSplitMode) (i : Instr) :
    valuesFit mode (descriptorTable.row i.mnemonic).layout
        (sval i.operands.1, sval i.operands.2.1, sval i.operands.2.2) ↔
      i.wellFormed = true ∧ ¬(mode = .compat ∧ isCompatMinimum i = true) := by
  cases i with
  | sub a b c | or a b c | srl a b c =>
    exact (valuesFit_formatR mode _ a b c).trans
      (by simp [Instr.wellFormed, isCompatMinimum, and_assoc])
  | lh a b c | andi a b c =>
    exact (valuesFit_formatI mode a b c).trans
      (by simp [Instr.wellFormed, isCompatMinimum, and_assoc])
  | sh a b c =>
    exact (valuesFit_formatS mode a b c).trans
      (by simp [Instr.wellFormed, isCompatMinimum, and_assoc])
  | beq a b c =>
    exact (valuesFit_formatSB mode a b c).trans
      (by simp [Instr.wellFormed, isCompatMinimum, and_assoc])

/-- Settles O22: selector 7 requests nothing and raises UnknownMnemonic; any other selector requests
the instruction whose row the operands must fit. -/
theorem fieldOverflowExactlyOutOfRange : Obligations.FieldOverflowExactlyOutOfRange := by
  rintro b ⟨sel, x, y, z⟩ htable
  by_cases hsel : sel = 7
  · subst hsel
    constructor
    · rw [encodeBlock_unassigned]
      exact fun herr => absurd herr (by decide : (1 : BitVec 2) ≠ 2)
    · rintro ⟨-, i, hdecode, -⟩
      cases hdecode
  · obtain ⟨m, rfl⟩ := Mnemonic.exists_selector_eq hsel
    have hdecode : decodePorts ⟨m.selector, x, y, z⟩ = some (Instr.of m x y z) := by
      simp [decodePorts]
    have hfit := valuesFit_descriptorTable b.split (Instr.of m x y z)
    rw [Instr.mnemonic_of, Instr.operands_of, isCompatMinimum_iff] at hfit
    rw [encodeBlock_err_eq_two_iff, htable, hfit, hdecode, not_and_or, not_not, Bool.not_eq_true]
    simp only [Option.some.injEq, exists_eq_left']

/-! ### The first error of a line -/

@[simp] theorem lookupMnemonic_spelling (m : Mnemonic) : lookupMnemonic (spelling m) = some m := by
  cases m <;> rfl

theorem lookupMnemonic_eq_none {mn : Text} (h : ∀ m, spelling m ≠ mn) :
    lookupMnemonic mn = none := by
  simp [lookupMnemonic, h]

theorem translateLine_of_unknown {line mn ops : Text} (build : Build)
    (htokens : tokenize line = some (mn, ops)) (h : ∀ m, spelling m ≠ mn) :
    translateLine build line = .unknownMnemonic := by
  simp only [translateLine, htokens, lookupMnemonic_eq_none h]

theorem translateLine_of_spelling {line ops : Text} {m : Mnemonic} (build : Build)
    (htokens : tokenize line = some (spelling m, ops)) :
    translateLine build line = translateOperands build m ops := by
  simp only [translateLine, htokens, lookupMnemonic_spelling]

/-- A value that `reject` places on a port is the port's value (44_assembler_syntax.md R151). -/
theorem sval_of_placePort_reject {v : Int} {p : Port} (h : placePort .reject v = some p) :
    sval p = v := by
  have hbounds : -2147483648 ≤ v ∧ v ≤ 2147483647 := by
    by_contra hout
    rw [placePort_eq_none_iff.mpr ⟨rfl, hout⟩] at h
    cases h
  rw [placePort_of_bounds fun _ => hbounds, Option.some.injEq] at h
  rw [← h, sval_eq_toInt, BitVec.toInt_ofInt]
  exact Int.bmod_eq_of_le (by omega) (by omega)

theorem assembleLine_of_request {build : Build} {line : Text} {i : Instr} (n : Nat)
    (h : translateLine build line = .request i) :
    ((encodeBlock build (encodePorts i)).err = 2 →
      assembleLine build line n = .diag n .fieldOverflow) ∧
    ((encodeBlock build (encodePorts i)).err ≠ 2 →
      ∃ text, assembleLine build line n = .out text) := by
  simp only [assembleLine, h]
  exact ⟨fun herr => if_pos herr, fun herr => ⟨_, if_neg herr⟩⟩

/-- A line whose operands are parsed ends in FieldOverflow under `reject` where a value does not fit,
whether it is the port or the field that cannot hold it, and in an output line otherwise
(60_exceptions.md R162, R164). -/
theorem assembleLine_of_placeOperands {build : Build} {line : Text} {m : Mnemonic}
    {v : Int × Int × Int} (n : Nat)
    (h : translateLine build line = placeOperands build.overflow m v) :
    (build.overflow = .reject → ¬valuesFit build.split (build.table.row m).layout v →
      assembleLine build line n = .diag n .fieldOverflow) ∧
    ((build.overflow = .reject → valuesFit build.split (build.table.row m).layout v) →
      ∃ text, assembleLine build line n = .out text) := by
  obtain ⟨a, b, c, ha, hb, hc, hplace⟩ | ⟨hnone, hplace⟩ :=
    placeOperands_cases build.overflow m v
  · have hports : encodePorts (Instr.of m a b c) = ⟨m.selector, a, b, c⟩ := by simp [encodePorts]
    have hvalues : build.overflow = .reject → (sval a, sval b, sval c) = v := by
      intro hreject
      rw [hreject] at ha hb hc
      rw [sval_of_placePort_reject ha, sval_of_placePort_reject hb, sval_of_placePort_reject hc]
    have hresult := assembleLine_of_request n (h.trans hplace)
    rw [hports, Ne, encodeBlock_err_eq_two_iff] at hresult
    obtain ⟨hdiag, hout⟩ := hresult
    refine ⟨fun hreject hfit => hdiag ⟨hreject, ?_⟩, fun hfit => hout ?_⟩
    · rwa [hvalues hreject]
    · rintro ⟨hreject, hunfit⟩
      rw [hvalues hreject] at hunfit
      exact hunfit (hfit hreject)
  · constructor
    · intro _ _
      simp only [assembleLine, h, hplace]
    · intro hfit
      simp only [placePort_eq_none_iff] at hnone
      have hreject : build.overflow = .reject := by tauto
      have hbounds := valuesFit_bounds (hfit hreject)
      tauto

/-- Settles O24: the host looks the mnemonic up, then parses, then places the values and asks the
block, and each of these reports its own error. -/
theorem errorPriority : Obligations.ErrorPriority := by
  refine ⟨?_, fun b x y z => by rw [encodeBlock_unassigned]⟩
  intro b line mn ops n htokens
  constructor
  · intro hunknown
    simp only [assembleLine, translateLine_of_unknown b htokens hunknown]
  · rintro m rfl
    have hline := translateLine_of_spelling b htokens
    rw [translateOperands_eq] at hline
    constructor
    · intro hparse
      rw [hparse] at hline
      simp only [assembleLine, hline]
    · intro v hparse
      rw [hparse] at hline
      exact assembleLine_of_placeOperands n hline

end Sys2Proof.Machine
end

section
/-! PROOFS of the statements about the step: what it runs, the run's record, and what every step
keeps (44_assembler_syntax.md R153 to R158, 70_reset_and_hazards.md R181 to R184). -/

namespace Sys2Proof.Machine

/-! ### The host's data as a run of their own

What a step does to the host's data follows from the build and the host's data alone:
`HostState.next` says it, and `step_eq` ties it to the step. -/

/-- The host's data with the result of a line recorded (44_assembler_syntax.md R158). -/
def HostState.record (h : HostState) : LineResult → HostState
  | .skip     => h
  | .out text => { h with output := h.output ++ [text] }
  | .diag n e => { h with diagnostics := h.diagnostics ++ [(n, e)] }

@[simp] theorem HostState.record_phase (h : HostState) (r : LineResult) :
    (h.record r).phase = h.phase := by cases r <;> rfl
@[simp] theorem HostState.record_input (h : HostState) (r : LineResult) :
    (h.record r).input = h.input := by cases r <;> rfl
@[simp] theorem HostState.record_lineNo (h : HostState) (r : LineResult) :
    (h.record r).lineNo = h.lineNo := by cases r <;> rfl
@[simp] theorem HostState.record_output (h : HostState) (r : LineResult) :
    (h.record r).output = h.output ++ r.outputLine.toList := by
  cases r <;> simp [HostState.record, LineResult.outputLine]
@[simp] theorem HostState.record_diagnostics (h : HostState) (r : LineResult) :
    (h.record r).diagnostics = h.diagnostics ++ r.diagnostic.toList := by
  cases r <;> simp [HostState.record, LineResult.diagnostic]

/-- The host's data after the host's next step (44_assembler_syntax.md R153). -/
def HostState.next (b : Build) (h : HostState) : HostState :=
  match h.phase with
  | .closed                 =>
    { h with phase := if h.pathsOpen then .reading (h.input.getD []) else .ended .ioFailed }
  | .reading []             => { h with phase := .ended h.endStatus }
  | .reading (line :: rest) =>
    HostState.record { h with phase := .reading rest, lineNo := h.lineNo + 1 }
      (assembleLine b line (h.lineNo + 1))
  | .ended _                => h

theorem HostState.next_of_closed (b : Build) {h : HostState} (hphase : h.phase = .closed) :
    h.next b =
      { h with phase := if h.pathsOpen then .reading (h.input.getD []) else .ended .ioFailed } := by
  simp only [HostState.next, hphase]

theorem HostState.next_of_reading_nil (b : Build) {h : HostState} (hphase : h.phase = .reading []) :
    h.next b = { h with phase := .ended h.endStatus } := by
  simp only [HostState.next, hphase]

theorem HostState.next_of_reading_cons (b : Build) {h : HostState} {line : Text} {rest : List Text}
    (hphase : h.phase = .reading (line :: rest)) :
    h.next b = HostState.record { h with phase := .reading rest, lineNo := h.lineNo + 1 }
      (assembleLine b line (h.lineNo + 1)) := by
  simp only [HostState.next, hphase]

theorem HostState.next_of_ended (b : Build) {h : HostState} {x : ExitStatus}
    (hphase : h.phase = .ended x) : h.next b = h := by
  simp only [HostState.next, hphase]

/-! ### The step on a presentation, on a line and at the ends of the run -/

theorem step_of_presented {s : State} {p : Ports} {rest : List Ports}
    (h : s.presented = p :: rest) : step s = presentStep p { s with presented := rest } := by
  simp only [step, h]

theorem step_of_closed {s : State} (h : s.presented = []) (hphase : s.host.phase = .closed) :
    step s = .next (openPaths s) := by
  simp only [step, hostStep, h, hphase]

theorem step_of_reading_nil {s : State} (h : s.presented = [])
    (hphase : s.host.phase = .reading []) : step s = .next (s.endRun s.host.endStatus) := by
  simp only [step, hostStep, h, hphase]

theorem step_of_reading_cons {s : State} {line : Text} {rest : List Text} (h : s.presented = [])
    (hphase : s.host.phase = .reading (line :: rest)) :
    step s = lineStep line (s.takeLine rest) := by
  simp only [step, hostStep, h, hphase]

theorem openPaths_host (s : State) (hphase : s.host.phase = .closed) :
    (openPaths s).host = s.host.next s.build := by
  rw [HostState.next_of_closed _ hphase]
  obtain ⟨hopen, h⟩ | ⟨hopen, h⟩ := openPaths_cases s <;> simp [h, hopen]

/-! ### Coherent outputs -/

/-- An evaluation of the block leaves its inputs and outputs together (70_reset_and_hazards.md
R184). -/
theorem State.coherent_drive (s : State) (p : Ports) : (s.drive p).coherent := rfl

/-- Coherence speaks of the build, the inputs and the outputs alone. -/
theorem State.coherent_of_eq {s t : State} (hbuild : t.build = s.build) (hports : t.ports = s.ports)
    (houtputs : t.outputs = s.outputs) (h : s.coherent) : t.coherent := by
  rw [State.coherent, hbuild, hports, houtputs]
  exact h

/-! ### What a line and a step leave -/

/-- The line of a request, by the block's answer (44_assembler_syntax.md R158). -/
theorem assembleLine_request {b : Build} {line : Text} {i : Instr} (n : Nat)
    (h : translateLine b line = .request i) :
    assembleLine b line n =
      if (encodeBlock b (encodePorts i)).err = 2 then .diag n .fieldOverflow
      else .out (bitsText (encodeBlock b (encodePorts i)).word) := by
  simp only [assembleLine, h]
  rfl

/-- A line's step leaves its result with the host, and everything but the inputs and outputs that it
drives as it was. -/
theorem lineStep_eq (line : Text) (s : State) :
    ∃ t, lineStep line s = .next t ∧ t.build = s.build ∧ (s.coherent → t.coherent) ∧
      t.presented = s.presented ∧
      t.host = s.host.record (assembleLine s.build line s.host.lineNo) := by
  obtain ⟨htranslate, hstep⟩ | ⟨htranslate, hstep⟩ | ⟨m, htranslate, hstep⟩ |
    ⟨m, htranslate, hstep⟩ | ⟨i, htranslate, hstep⟩ := lineStep_cases line s
  · exact ⟨_, hstep, rfl, id, rfl, by simp only [assembleLine, htranslate]; rfl⟩
  · exact ⟨_, hstep, rfl, fun _ => rfl, rfl, by simp only [assembleLine, htranslate]; rfl⟩
  · exact ⟨_, hstep, rfl, fun _ => rfl, rfl, by simp only [assembleLine, htranslate]; rfl⟩
  · exact ⟨_, hstep, rfl, fun _ => rfl, rfl, by simp only [assembleLine, htranslate]; rfl⟩
  · refine ⟨_, hstep, by simp, fun _ => State.coherent_of_eq (by simp) (by simp) (by simp)
      (State.coherent_drive s (encodePorts i)), by simp, ?_⟩
    rw [assembleLine_request _ htranslate]
    obtain ⟨herr, hrecord⟩ | ⟨herr, hrecord⟩ := (s.drive (encodePorts i)).recordResult_cases
    · rw [hrecord, if_pos (show (encodeBlock s.build (encodePorts i)).err = 2 from herr)]
      rfl
    · rw [hrecord, if_neg (show (encodeBlock s.build (encodePorts i)).err ≠ 2 from herr)]
      rfl

/-- What every step does: it answers a next state of the same build, keeps the outputs coherent,
takes one waiting presentation, and only where none waits moves the host on. -/
theorem step_eq (s : State) :
    ∃ t, step s = .next t ∧ t.build = s.build ∧ (s.coherent → t.coherent) ∧
      t.presented = s.presented.tail ∧
      t.host = if s.presented = [] then s.host.next s.build else s.host := by
  obtain ⟨p, rest, hwaiting, hstep⟩ | ⟨hnone, hphase, hstep⟩ | ⟨hnone, hphase, hstep⟩ |
    ⟨line, rest, hnone, hphase, hstep⟩ | ⟨x, hnone, hphase, hstep⟩ := step_cases s
  · exact ⟨_, hstep, rfl, fun _ => State.coherent_drive _ p, by simp [hwaiting], by simp [hwaiting]⟩
  · refine ⟨_, hstep, by simp, State.coherent_of_eq (by simp) (by simp) (by simp),
      by simp [hnone], ?_⟩
    rw [if_pos hnone, openPaths_host s hphase]
  · refine ⟨_, hstep, rfl, State.coherent_of_eq rfl rfl rfl, by simp [hnone], ?_⟩
    rw [if_pos hnone, HostState.next_of_reading_nil _ hphase, State.endRun_host]
  · obtain ⟨t, ht, hbuild, hcoherent, hpresented, hhost⟩ := lineStep_eq line (s.takeLine rest)
    refine ⟨t, hstep.trans ht, hbuild, hcoherent, by simp [hpresented, hnone], ?_⟩
    rw [if_pos hnone, HostState.next_of_reading_cons _ hphase]
    exact hhost
  · refine ⟨_, hstep, rfl, fun _ => State.coherent_drive s _, by simp [hnone], ?_⟩
    rw [if_pos hnone, HostState.next_of_ended _ hphase, State.drive_host]

/-- `step_eq` for a next state that is named already. -/
theorem step_next {s t : State} (h : step s = .next t) :
    t.build = s.build ∧ (s.coherent → t.coherent) ∧ t.presented = s.presented.tail ∧
      t.host = if s.presented = [] then s.host.next s.build else s.host := by
  obtain ⟨u, hu, hkeeps⟩ := step_eq s
  obtain rfl : u = t := Host.Outcome.next.inj (hu.symm.trans h)
  exact hkeeps

/-- Settles O46: every evaluation leaves its inputs and outputs together, and nothing else writes
them. -/
theorem stepKeepsOutputsCoherent : Obligations.StepKeepsOutputsCoherent := by
  intro s t hcoherent hstep
  obtain ⟨-, hkeeps, -⟩ := step_next hstep
  exact hkeeps hcoherent

/-- Settles O49. -/
theorem stepNeverChangesBuild : Obligations.StepNeverChangesBuild := by
  intro s t hstep
  obtain ⟨hbuild, -⟩ := step_next hstep
  exact hbuild

/-- Settles O50: the host's next data and the presentations left are functions of what the two
states share. -/
theorem recordIndependentOfHistory : Obligations.RecordIndependentOfHistory := by
  intro s u t v hbuild hhost hpresented hs hu
  obtain ⟨-, -, htPresented, htHost⟩ := step_next hs
  obtain ⟨-, -, hvPresented, hvHost⟩ := step_next hu
  rw [htHost, htPresented, hvHost, hvPresented, hbuild, hhost, hpresented]
  exact ⟨rfl, rfl⟩

/-! ### The sound record -/

/-- A record is sound by the build and the host's data alone. -/
theorem State.recordSound_of_eq {s t : State} (hbuild : t.build = s.build) (hhost : t.host = s.host)
    (h : s.recordSound) : t.recordSound := by
  rw [State.recordSound, hbuild, hhost]
  exact h

theorem State.recordSound_of_closed {s : State} (hphase : s.host.phase = .closed) :
    s.recordSound ↔ s.host.lineNo = 0 ∧ s.host.wrote s.build [] := by
  simp only [State.recordSound, hphase]

theorem State.recordSound_of_reading {s : State} {unread : List Text}
    (hphase : s.host.phase = .reading unread) :
    s.recordSound ↔ ∃ lines, s.host.input = some lines ∧ s.host.lineNo ≤ lines.length ∧
      unread = lines.drop s.host.lineNo ∧ s.host.wrote s.build (lines.take s.host.lineNo) := by
  simp only [State.recordSound, hphase]

theorem State.recordSound_of_ioFailed {s : State} (hphase : s.host.phase = .ended .ioFailed) :
    s.recordSound ↔
      s.host.pathsOpen = false ∧ s.host.lineNo = 0 ∧ s.host.wrote s.build [] := by
  simp only [State.recordSound, hphase]

/-- The status of a run that read its lines to the end is the one its diagnostics give. -/
theorem State.recordSound_of_endStatus {s : State}
    (hphase : s.host.phase = .ended s.host.endStatus) :
    s.recordSound ↔ ∃ lines, s.host.input = some lines ∧ s.host.lineNo = lines.length ∧
      s.host.wrote s.build lines := by
  unfold HostState.endStatus at hphase
  split at hphase
  case isTrue hempty =>
    rw [List.isEmpty_iff] at hempty
    simp only [State.recordSound, hphase, hempty, and_true]
  case isFalse hsome =>
    rw [List.isEmpty_iff] at hsome
    simp only [State.recordSound, hphase, ne_eq, hsome, not_false_eq_true, and_true]

/-- One more line read, and its result recorded. -/
theorem HostState.wrote_record {b : Build} {lines : List Text} {h : HostState}
    (hwrote : h.wrote b lines) (line : Text) :
    (h.record (assembleLine b line (lines.length + 1))).wrote b (lines ++ [line]) := by
  obtain ⟨houtput, hdiagnostics⟩ := hwrote
  rw [HostState.wrote, lineResults_append, Nat.add_comm 1, List.filterMap_append,
    List.filterMap_append, HostState.record_output, HostState.record_diagnostics, houtput,
    hdiagnostics]
  cases assembleLine b line (lines.length + 1) <;> exact ⟨rfl, rfl⟩

/-- The next unread line extends what has been read by itself. -/
theorem take_succ_of_drop_eq_cons {α : Type} {l rest : List α} {x : α} {n : Nat}
    (h : l.drop n = x :: rest) : l.take (n + 1) = l.take n ++ [x] := by
  have hx : l[n]? = some x := by rw [← List.head?_drop, h, List.head?_cons]
  rw [List.take_add_one, hx, Option.toList_some]

section
variable {s t : State} (hbuild : t.build = s.build) (hhost : t.host = s.host.next s.build)
include hbuild hhost

/-- Opening the paths starts an empty record, or ends the run with one. -/
theorem State.recordSound_of_next_of_closed (hphase : s.host.phase = .closed) (h : s.recordSound) :
    t.recordSound := by
  obtain ⟨hzero, hwrote⟩ := (State.recordSound_of_closed hphase).mp h
  rw [HostState.next_of_closed _ hphase] at hhost
  cases hopen : s.host.pathsOpen with
  | true =>
    obtain ⟨lines, hlines⟩ : ∃ lines, s.host.input = some lines := by
      simp only [HostState.pathsOpen, Bool.and_eq_true] at hopen
      obtain ⟨hinput, -⟩ := hopen
      exact Option.isSome_iff_exists.mp hinput
    have hreading : t.host.phase = .reading lines := by simp [hhost, hopen, hlines]
    rw [State.recordSound_of_reading hreading, hbuild, hhost]
    refine ⟨lines, hlines, ?_, ?_, ?_⟩ <;> simp only [hzero]
    · exact Nat.zero_le _
    · rfl
    · exact hwrote
  | false =>
    have hended : t.host.phase = .ended .ioFailed := by simp [hhost, hopen]
    rw [State.recordSound_of_ioFailed hended, hbuild, hhost]
    exact ⟨hopen, hzero, hwrote⟩

/-- At the end of the lines, what has been read is the whole file. -/
theorem State.recordSound_of_next_of_reading_nil (hphase : s.host.phase = .reading [])
    (h : s.recordSound) : t.recordSound := by
  obtain ⟨lines, hlines, hle, hunread, hwrote⟩ := (State.recordSound_of_reading hphase).mp h
  rw [HostState.next_of_reading_nil _ hphase] at hhost
  have hended : t.host.phase = .ended t.host.endStatus := by rw [hhost]; rfl
  have hall : lines.length ≤ s.host.lineNo := List.drop_eq_nil_iff.mp hunread.symm
  rw [List.take_of_length_le hall] at hwrote
  rw [State.recordSound_of_endStatus hended, hbuild, hhost]
  exact ⟨lines, hlines, Nat.le_antisymm hle hall, hwrote⟩

/-- A line read is the next of the file, and its result is recorded with its number. -/
theorem State.recordSound_of_next_of_reading_cons {line : Text} {rest : List Text}
    (hphase : s.host.phase = .reading (line :: rest)) (h : s.recordSound) : t.recordSound := by
  obtain ⟨lines, hlines, hle, hunread, hwrote⟩ := (State.recordSound_of_reading hphase).mp h
  rw [HostState.next_of_reading_cons _ hphase] at hhost
  have hreading : t.host.phase = .reading rest := by simp [hhost]
  have hlt : s.host.lineNo < lines.length := by
    have hlength := congrArg List.length hunread
    simp only [List.length_cons, List.length_drop] at hlength
    omega
  have hrest : rest = lines.drop (s.host.lineNo + 1) := by
    rw [← List.tail_drop, ← hunread, List.tail_cons]
  rw [State.recordSound_of_reading hreading, hbuild, hhost]
  refine ⟨lines, by simp [hlines], by simpa using hlt, by simpa using hrest, ?_⟩
  have hread := HostState.wrote_record
    (h := { s.host with phase := .reading rest, lineNo := s.host.lineNo + 1 }) hwrote line
  rw [List.length_take_of_le hle] at hread
  simpa [take_succ_of_drop_eq_cons hunread.symm] using hread

/-- The host's next step keeps the record sound, by the phase it starts in. -/
theorem State.recordSound_of_next (h : s.recordSound) : t.recordSound := by
  cases hphase : s.host.phase with
  | closed => exact State.recordSound_of_next_of_closed hbuild hhost hphase h
  | reading unread =>
    cases unread with
    | nil => exact State.recordSound_of_next_of_reading_nil hbuild hhost hphase h
    | cons line rest => exact State.recordSound_of_next_of_reading_cons hbuild hhost hphase h
  | ended x =>
    rw [HostState.next_of_ended _ hphase] at hhost
    exact State.recordSound_of_eq hbuild hhost h

end

/-- Settles O47: a presentation leaves the host's data alone, and the host's own step keeps the
record sound. -/
theorem stepKeepsRecordSound : Obligations.StepKeepsRecordSound := by
  intro s t hsound hstep
  obtain ⟨hbuild, -, -, hhost⟩ := step_next hstep
  split at hhost
  · exact State.recordSound_of_next hbuild hhost hsound
  · exact State.recordSound_of_eq hbuild hhost hsound

/-- Settles O48: nothing is read or written at reset, and the outputs are sampled for the inputs. -/
theorem resetIsSound : Obligations.ResetIsSound :=
  ⟨rfl, (State.recordSound_of_closed rfl).mpr ⟨rfl, rfl, rfl⟩, rfl, rfl, rfl⟩

/-! ### Lines and runs -/

/-- Settles O51: the host's next data on a line are its data with the line's result recorded. -/
theorem lineStepFollowsAssembleLine : Obligations.LineStepFollowsAssembleLine := by
  constructor
  · intro s line rest hnone hphase
    obtain ⟨t, hstep, hbuild, -, hpresented, hhost⟩ := step_eq s
    rw [if_pos hnone, HostState.next_of_reading_cons _ hphase] at hhost
    refine ⟨t, hstep, hbuild, by rw [hpresented, hnone, List.tail_nil], ?_⟩
    rw [hhost]
    cases assembleLine s.build line (s.host.lineNo + 1) <;> rfl
  · intro b line n i hrequest
    rw [assembleLine_request n hrequest]
    exact ⟨fun herr => if_neg (by simp [herr]), fun herr => if_pos herr⟩

theorem filterMap_lineResults_cons {α : Type} (f : LineResult → Option α) (b : Build) (n : Nat)
    (line : Text) (lines : List Text) :
    (lineResults b n (line :: lines)).filterMap f =
      (f (assembleLine b line n)).toList ++ (lineResults b (n + 1) lines).filterMap f := by
  rw [lineResults_cons, List.filterMap_cons]
  cases f (assembleLine b line n) <;> rfl

/-- Settles O52, by induction on the unread lines: one step for each line, and one that ends the
run. -/
theorem runTranscribesEveryLine : Obligations.RunTranscribesEveryLine := by
  intro s lines
  induction lines generalizing s with
  | nil =>
    intro hnone hphase
    refine ⟨_, run_succ 0 (step_of_reading_nil hnone hphase), rfl, rfl, ?_, ?_, ?_, ?_⟩
    · simp [lineResults]
    · simp [lineResults]
    · intro hempty
      simp_all [HostState.endStatus]
    · intro hsome
      simp_all [HostState.endStatus]
  | cons line rest ih =>
    intro hnone hphase
    obtain ⟨u, hstep, hbuild, -, hpresented, hhost⟩ := step_eq s
    rw [if_pos hnone, HostState.next_of_reading_cons _ hphase] at hhost
    rw [hnone, List.tail_nil] at hpresented
    obtain ⟨t, hrun, htBuild, hlineNo, houtput, hdiagnostics, hok, hfailed⟩ :=
      ih u hpresented (by rw [hhost, HostState.record_phase])
    refine ⟨t, (run_succ _ hstep).trans hrun, htBuild.trans hbuild, ?_, ?_, ?_, hok, hfailed⟩
    · rw [hlineNo, hhost, HostState.record_lineNo, List.length_cons, Nat.add_assoc, Nat.add_comm 1]
    · rw [houtput, hhost, hbuild, filterMap_lineResults_cons]
      simp
    · rw [hdiagnostics, hhost, hbuild, filterMap_lineResults_cons]
      simp

/-- Settles O59. -/
theorem runOpensAndEnds : Obligations.RunOpensAndEnds := by
  intro s hnone
  refine ⟨?_, ?_, ?_, ?_, rfl, rfl, rfl⟩
  · intro lines hphase hinput hopens
    have hopen : s.host.pathsOpen = true := by simp [HostState.pathsOpen, hinput, hopens]
    simp [step_of_closed hnone hphase, openPaths, hopen, hinput]
  · intro hphase hcloses
    have hclosed : s.host.pathsOpen = false := by
      obtain hinput | ⟨houtput, hopens⟩ := hcloses
      · simp [HostState.pathsOpen, hinput]
      · simp [HostState.pathsOpen, Option.isSome_iff_ne_none, houtput, hopens]
    simp [step_of_closed hnone hphase, openPaths, hclosed, State.endRun]
  · intro hphase hempty
    simp [step_of_reading_nil hnone hphase, HostState.endStatus, hempty, State.endRun]
  · intro hphase hsome
    simp [step_of_reading_nil hnone hphase, HostState.endStatus, hsome, State.endRun]

/-! ### What a step runs -/

/-- Settles O1. -/
theorem stepRunsPresentedInstruction : Obligations.StepRunsPresentedInstruction := by
  intro s p rest i hpresented hdecode
  rw [step_of_presented hpresented, presentStep, hdecode]

theorem decodePorts_encodePorts (i : Instr) : decodePorts (encodePorts i) = some i := by
  simp [decodePorts, encodePorts]

theorem encodePorts_of (m : Mnemonic) (a b c : Port) :
    encodePorts (Instr.of m a b c) = ⟨m.selector, a, b, c⟩ := by
  simp [encodePorts]

/-- A request is never answered with UnknownMnemonic or MalformedOperand (60_exceptions.md R161). -/
theorem encodeBlock_request_err (b : Build) (i : Instr) :
    (encodeBlock b (encodePorts i)).err = 0 ∨ (encodeBlock b (encodePorts i)).err = 2 := by
  rw [encodePorts, encodeBlock_selector]
  cases assemble b (b.table.row i.mnemonic) (sval i.operands.1) (sval i.operands.2.1)
    (sval i.operands.2.2) with
  | none => exact .inr rfl
  | some w => exact .inl rfl

/-- Settles O2: the step is the line's, which runs `exec` and records the block's answer. -/
theorem stepRunsTranslatedLine : Obligations.StepRunsTranslatedLine := by
  intro s t line rest i hnone hphase hrequest hexec
  have hstep : step s = .next t.recordResult := by
    rw [step_of_reading_cons hnone hphase, lineStep, State.takeLine_build, hrequest]
    simp only [hexec]
  rw [exec_eq, Host.Outcome.next.injEq] at hexec
  subst hexec
  refine ⟨hstep, encodeBlock_request_err s.build i, fun herr => ?_, fun herr => ?_⟩
  · rw [hstep, State.recordResult, if_neg (by rw [herr]; decide)]
    rfl
  · rw [hstep, State.recordResult, if_pos (by rw [herr]; rfl)]
    rfl

/-- Settles O3: the request of the word is the next presentation. -/
theorem fetchedTableWordRuns : Obligations.FetchedTableWordRuns := by
  intro s nbits w i hdecode
  have hfetch : s.withFetchWord nbits w = { s with presented := encodePorts i :: s.presented } := by
    simp only [State.withFetchWord, hdecode]
  rw [hfetch, stepRunsPresentedInstruction _ _ _ i rfl (decodePorts_encodePorts i)]

/-- Settles O4. -/
theorem everyStepAnswersNext : Obligations.EveryStepAnswersNext := by
  refine ⟨fun i s => ⟨_, exec_eq i s⟩, fun s => ?_⟩
  obtain ⟨t, hstep, -⟩ := step_eq s
  exact ⟨t, hstep⟩

/-- Settles O5: the multiplexer's codes and selections are inverse to each other. -/
theorem portRequestsRoundTrip : Obligations.PortRequestsRoundTrip := by
  refine ⟨decodePorts_encodePorts, ?_, ?_⟩
  · intro p i hdecode
    obtain ⟨m, hm, rfl⟩ := Option.map_eq_some_iff.mp hdecode
    rw [encodePorts_of, Mnemonic.selector_of_ofSelector hm]
  · intro p
    rw [decodePorts, Option.map_eq_none_iff, Mnemonic.ofSelector_eq_none_iff]

/-- Settles O14. -/
theorem execFrame : Obligations.ExecFrame := by
  intro i s t hexec
  rw [exec_eq, Host.Outcome.next.injEq] at hexec
  subst hexec
  exact ⟨rfl, rfl, rfl, rfl, rfl⟩

/-- Settles O20: a presentation of selector 7 is one evaluation, and a line with no mnemonic of the
table drives that selector and reports it. -/
theorem unknownMnemonicIsReported : Obligations.UnknownMnemonicIsReported := by
  constructor
  · intro s a b c rest hpresented
    rw [step_of_presented hpresented, presentStep_eq]
    rfl
  · intro s line mn ops unread hnone hphase htokens hunknown
    have htranslate := translateLine_of_unknown s.build htokens hunknown
    refine ⟨((s.takeLine unread).drive unassignedPorts).diagnose .unknownMnemonic, ?_,
      rfl, rfl, rfl⟩
    rw [step_of_reading_cons hnone hphase, lineStep, State.takeLine_build, htranslate]

end Sys2Proof.Machine
end

section
/-! PROOFS of the statements that compare the block with the bit layouts of 30_encoding.md R51 to
R54, and of the completion of the instructions (40_r_format.md to 43_sb_format.md). -/

namespace Sys2Proof.Machine

/-! ### The block's answer in terms of the bit layout -/

/-- The assembler answers no word but the bit layout's (30_encoding.md R77). -/
theorem assemble_eq_none_or_encodeFields (build : Build) (d : Descriptor) (a b c : Port) :
    assemble build d (sval a) (sval b) (sval c) = none ∨
      assemble build d (sval a) (sval b) (sval c) = some (encodeFields build.split d a b c) := by
  rw [encodeFields]
  cases hlayout : d.layout with
  | R f7 =>
    rw [assemble_formatR hlayout]
    exact (assembleR_cases _ d f7 a b c).symm.imp And.right And.right
  | I =>
    rw [assemble_formatI hlayout]
    exact (assembleI_cases _ d a b c).symm.imp And.right And.right
  | S =>
    rw [assemble_formatS hlayout]
    exact (assembleS_cases _ _ d a b c).symm.imp And.right And.right
  | SB =>
    rw [assemble_formatSB hlayout]
    exact (assembleSB_cases _ _ d a b c).symm.imp And.right And.right

section
variable {b : Build} {m : Mnemonic} {x y z : Port}

/-- `Encode` of operands that fit their row, or of any operands under `truncate`. -/
theorem encodeBlock_of_valuesFit
    (h : b.overflow = .reject →
      valuesFit b.split (b.table.row m).layout (sval x, sval y, sval z)) :
    encodeBlock b ⟨m.selector, x, y, z⟩ = ⟨encodeFields b.split (b.table.row m) x y z, 0,
      fmtCode (b.table.row m).layout, shapeCode (b.table.row m).shape⟩ := by
  rw [encodeBlock_selector]
  obtain hnone | hword := assemble_eq_none_or_encodeFields b (b.table.row m) x y z
  · obtain ⟨hreject, hout⟩ := (assemble_eq_none_iff b _ x y z).mp hnone
    exact absurd (h hreject) hout
  · rw [hword]
    rfl

/-- `Encode` of operands that overflow (60_exceptions.md R165). -/
theorem encodeBlock_of_not_valuesFit (hreject : b.overflow = .reject)
    (h : ¬valuesFit b.split (b.table.row m).layout (sval x, sval y, sval z)) :
    encodeBlock b ⟨m.selector, x, y, z⟩ = ⟨0, 2, fmtCode (b.table.row m).layout,
      shapeCode (b.table.row m).shape⟩ := by
  rw [encodeBlock_selector, (assemble_eq_none_iff b _ x y z).mpr ⟨hreject, h⟩]
  rfl

/-- Without FieldOverflow the operands fit their row or the policy is `truncate`. -/
theorem valuesFit_of_err_ne_two (h : (encodeBlock b ⟨m.selector, x, y, z⟩).err ≠ 2)
    (hreject : b.overflow = .reject) :
    valuesFit b.split (b.table.row m).layout (sval x, sval y, sval z) := by
  by_contra hout
  exact h ((encodeBlock_err_eq_two_iff b m x y z).mpr ⟨hreject, hout⟩)

theorem valuesFit_of_err_eq_zero (h : (encodeBlock b ⟨m.selector, x, y, z⟩).err = 0)
    (hreject : b.overflow = .reject) :
    valuesFit b.split (b.table.row m).layout (sval x, sval y, sval z) :=
  valuesFit_of_err_ne_two (by rw [h]; decide) hreject

/-- A word without error is the bit layout's. -/
theorem word_of_err_eq_zero (h : (encodeBlock b ⟨m.selector, x, y, z⟩).err = 0) :
    (encodeBlock b ⟨m.selector, x, y, z⟩).word = encodeFields b.split (b.table.row m) x y z := by
  rw [encodeBlock_of_valuesFit (valuesFit_of_err_eq_zero h)]

/-- A word of a row, with or without an error: zero, or the bit layout's. -/
theorem word_eq_zero_or_encodeFields (b : Build) (m : Mnemonic) (x y z : Port) :
    (encodeBlock b ⟨m.selector, x, y, z⟩).word = 0 ∨
      (encodeBlock b ⟨m.selector, x, y, z⟩).word =
        encodeFields b.split (b.table.row m) x y z := by
  by_cases herr : (encodeBlock b ⟨m.selector, x, y, z⟩).err = 0
  · exact .inr (word_of_err_eq_zero herr)
  · obtain ⟨-, hzero, -⟩ := encodeBlock_error_outputs b ⟨m.selector, x, y, z⟩
    exact .inl (hzero herr)

end

/-- With the table of R74 the block accepts exactly the operands that fit their row. -/
theorem accepted_iff_valuesFit {b : Build} (htable : b.table = descriptorTable) (i : Instr) :
    accepted b i ↔ (b.overflow = .reject → valuesFit b.split (b.table.row i.mnemonic).layout
      (sval i.operands.1, sval i.operands.2.1, sval i.operands.2.2)) := by
  rw [accepted, htable, valuesFit_descriptorTable]

/-- Settles O39: accepted instructions are those whose operands fit their row. -/
theorem blockRefinesBitLayout : Obligations.BlockRefinesBitLayout := by
  intro b i htable
  rw [accepted_iff_valuesFit htable]
  constructor
  · exact encodeBlock_of_valuesFit
  · intro hout
    rw [Classical.not_imp] at hout
    obtain ⟨hreject, hunfit⟩ := hout
    exact encodeBlock_of_not_valuesFit hreject hunfit

/-! ### What the parameters change -/

/-- Settles O43: operands that `reject` accepts fit their row, and then both policies give the bit
layout's word. -/
theorem policyOnlyChangesRejectedRequests : Obligations.PolicyOnlyChangesRejectedRequests := by
  rintro b ⟨sel, x, y, z⟩ herr
  by_cases hsel : sel = 7
  · subst hsel
    rfl
  · obtain ⟨m, rfl⟩ := Mnemonic.exists_selector_eq hsel
    rw [encodeBlock_of_valuesFit (valuesFit_of_err_ne_two herr), encodeBlock_of_valuesFit (by simp)]

theorem splitSource_of_nonneg {imm : Port} (h : 0 ≤ imm.toInt) (mode : ImmSplitMode) :
    splitSource mode imm = imm := by
  cases mode with
  | twos => rfl
  | compat => exact if_neg (by rw [msb_iff_neg]; omega)

theorem splitSource_compat_of_neg {imm : Port} (h : imm.toInt < 0) :
    splitSource .compat imm = -imm :=
  if_pos ((msb_iff_neg imm).mpr h)

/-- The upper field of an SB offset in [0, 4095] has no sign bit, and is the same in both modes. -/
theorem immHiBitsSB_of_nonneg {imm : Port} (h0 : 0 ≤ imm.toInt) (h1 : imm.toInt ≤ 4095) :
    immHiBitsSB .twos imm = immHiBitsSB .compat imm := by
  have hnat := toInt_emod imm
  apply BitVec.eq_of_toNat_eq
  rw [immHiBitsSB_twos_toNat, immHiBitsSB_compat_toNat, splitSource_of_nonneg h0]
  omega

section
variable {layout : Layout} {z : Port}

theorem valuesFit_twos_iff_compat (v w : Int)
    (h : layout = .S ∨ layout = .SB → 0 ≤ z.toInt ∧ z.toInt ≤ 4095) :
    valuesFit .twos layout (v, w, sval z) ↔ valuesFit .compat layout (v, w, sval z) := by
  cases layout with
  | R f7 | I | S => exact Iff.rfl
  | SB =>
    obtain ⟨h0, -⟩ := h (.inr rfl)
    rw [← sval_eq_toInt] at h0
    have hminimum : sval z ≠ -4096 := by omega
    simp [valuesFit, hminimum]

theorem encodeFields_twos_eq_compat (opcode : BitVec 7) (funct3 : BitVec 3) (shape : Shape)
    (x y : Port) (h : layout = .S ∨ layout = .SB → 0 ≤ z.toInt ∧ z.toInt ≤ 4095) :
    encodeFields .twos ⟨layout, opcode, funct3, shape⟩ x y z =
      encodeFields .compat ⟨layout, opcode, funct3, shape⟩ x y z := by
  cases layout with
  | R f7 | I => rfl
  | S =>
    obtain ⟨h0, -⟩ := h (.inl rfl)
    simp only [encodeFields, immHiBitsS, splitSource_of_nonneg h0]
  | SB =>
    obtain ⟨h0, h1⟩ := h (.inr rfl)
    simp only [encodeFields, immHiBitsSB_of_nonneg h0 h1]

end

/-- Settles O44: in both modes the same operands fit, and the bit layout is the same. -/
theorem splitModeOnlyChangesNegativeImmediates :
    Obligations.SplitModeOnlyChangesNegativeImmediates := by
  intro b m x y z himm
  have hfit := valuesFit_twos_iff_compat (sval x) (sval y) himm
  have hword := encodeFields_twos_eq_compat (b.table.row m).opcode (b.table.row m).funct3
    (b.table.row m).shape x y himm
  by_cases haccept : b.overflow = .reject →
      valuesFit .compat (b.table.row m).layout (sval x, sval y, sval z)
  · rw [encodeBlock_of_valuesFit (b := { b with split := .compat }) haccept,
      encodeBlock_of_valuesFit (b := { b with split := .twos }) (by rwa [hfit])]
    simp only [hword]
  · rw [Classical.not_imp] at haccept
    obtain ⟨hreject, hunfit⟩ := haccept
    rw [encodeBlock_of_not_valuesFit (b := { b with split := .compat }) hreject hunfit,
      encodeBlock_of_not_valuesFit (b := { b with split := .twos }) hreject (by rwa [hfit])]

/-! ### The instructions -/

/-- `exec` shows what `Encode` answers, a word or FieldOverflow, and changes nothing else. -/
theorem exec_of_encodeBlock_cases {i : Instr} {s : State} {fit reject out : Prop} {o o' : Outputs}
    (h : (fit → encodeBlock s.build (encodePorts i) = o) ∧
      (reject → out → encodeBlock s.build (encodePorts i) = o')) :
    (fit → exec i s = .next { s with ports := encodePorts i, outputs := o }) ∧
      (reject → out → exec i s = .next { s with ports := encodePorts i, outputs := o' }) := by
  obtain ⟨hword, hoverflow⟩ := h
  exact ⟨fun hfit => exec_of_encodeBlock_eq (hword hfit),
    fun hreject hout => exec_of_encodeBlock_eq (hoverflow hreject hout)⟩

/-- Settles O8: the row of `or` is of format R. -/
theorem orBuildsItsWord : Obligations.OrBuildsItsWord := by
  intro rd rs1 rs2 s htable
  have hrow : s.build.table.row .or =
      ⟨.R 0b0000000#7, 0b0110011#7, 0b110#3, .registerList⟩ := by rw [htable]; rfl
  exact exec_of_encodeBlock_cases (encodeBlock_formatR hrow rd rs1 rs2)

/-- Settles O9: the row of `srl` is of format R. -/
theorem srlBuildsItsWord : Obligations.SrlBuildsItsWord := by
  intro rd rs1 rs2 s htable
  have hrow : s.build.table.row .srl =
      ⟨.R 0b0000000#7, 0b0110011#7, 0b101#3, .registerList⟩ := by rw [htable]; rfl
  exact exec_of_encodeBlock_cases (encodeBlock_formatR hrow rd rs1 rs2)

/-- Settles O10: the row of `lh` is of format I. -/
theorem lhBuildsItsWord : Obligations.LhBuildsItsWord := by
  intro rd rs1 imm s htable
  have hrow : s.build.table.row .lh =
      ⟨.I, 0b0000011#7, 0b001#3, .registerOffset⟩ := by rw [htable]; rfl
  exact exec_of_encodeBlock_cases (encodeBlock_formatI hrow rd rs1 imm)

/-- The upper field of a store, by mode and sign (30_encoding.md R66). -/
theorem immHiBitsS_eq_ite (mode : ImmSplitMode) (imm : Port) :
    immHiBitsS mode imm = if mode = .compat ∧ imm.toInt < 0 then (-imm).extractLsb' 5 7
      else imm.extractLsb' 5 7 := by
  cases mode with
  | twos => rfl
  | compat =>
    by_cases hneg : imm.toInt < 0
    · rw [if_pos ⟨rfl, hneg⟩, immHiBitsS, splitSource_compat_of_neg hneg]
    · rw [if_neg (by simp [hneg]), immHiBitsS, splitSource_of_nonneg (not_lt.mp hneg)]

/-- The upper field of a branch, by mode and sign (30_encoding.md R68, R69). -/
theorem immHiBitsSB_eq_ite (mode : ImmSplitMode) (imm : Port) :
    immHiBitsSB mode imm = if mode = .compat then
        (if imm.toInt < 0 then 0#1 ++ (-imm).extractLsb' 5 6 else 0#1 ++ imm.extractLsb' 5 6)
      else imm.extractLsb' 12 1 ++ imm.extractLsb' 5 6 := by
  cases mode with
  | twos => rfl
  | compat =>
    by_cases hneg : imm.toInt < 0
    · rw [if_pos rfl, if_pos hneg, immHiBitsSB, splitSource_compat_of_neg hneg]
    · rw [if_pos rfl, if_neg hneg, immHiBitsSB, splitSource_of_nonneg (not_lt.mp hneg)]

/-- Settles O12: the row of `sh` is of format S. -/
theorem shBuildsItsWord : Obligations.ShBuildsItsWord := by
  intro rs1 rs2 imm s htable
  have hrow : s.build.table.row .sh =
      ⟨.S, 0b0100011#7, 0b001#3, .registerOffset⟩ := by rw [htable]; rfl
  rw [← immHiBitsS_eq_ite]
  exact exec_of_encodeBlock_cases (encodeBlock_formatS hrow rs1 rs2 imm)

/-- Settles O13: the row of `beq` is of format SB. -/
theorem beqBuildsItsWord : Obligations.BeqBuildsItsWord := by
  intro rs1 rs2 imm s htable
  have hrow : s.build.table.row .beq =
      ⟨.SB, 0b1100011#7, 0b000#3, .registerImmediate⟩ := by rw [htable]; rfl
  rw [← immHiBitsSB_eq_ite]
  exact exec_of_encodeBlock_cases (encodeBlock_formatSB hrow rs1 rs2 imm)

/-- Settles O45. -/
theorem hardwareTableWellFormed : Obligations.HardwareTableWellFormed := by
  refine ⟨?_, rfl, rfl⟩
  decide

end Sys2Proof.Machine
end

section
/-! PROOFS of the statements about the immediate fields as integers (30_encoding.md R57, R58, R66 to
R69). -/

namespace Sys2Proof.Machine

theorem floorShift_eq (v : Int) (n : Nat) : floorShift v n = v / 2 ^ n := by
  rw [floorShift]
  norm_cast

/-- Settles O25: both shifts are the floored quotient, of the value or of its magnitude. -/
theorem shiftsOfTheTwoModes : Obligations.ShiftsOfTheTwoModes := by
  intro v n
  refine ⟨fun h => ?_, fun h => ?_, ?_, floorShift_eq v n⟩
  · rw [arsCompat, if_pos h, floorShift_eq]
  · rw [arsCompat, if_neg (by omega), floorShift_eq]
  · rw [arsCompat_eq_abs, floorShift_eq]
    positivity

/-- A value within 32 bits is that of a port. -/
theorem exists_sval_eq {v : Int} (h0 : -2147483648 ≤ v) (h1 : v ≤ 2147483647) :
    ∃ p : Port, sval p = v :=
  ⟨_, sval_of_placePort_reject (placePort_of_bounds fun _ => ⟨h0, h1⟩)⟩

/-- A slice of a port's value is a field of its bits. -/
theorem slice_sval (p : Port) (hi lo : Nat) (h : lo + (hi - lo + 1) ≤ 32) :
    slice (sval p) hi lo = (p.extractLsb' lo (hi - lo + 1)).toNat :=
  lowBits_floorShift_sval p lo _ h

/-- Settles O28, on the port that holds the immediate: the field is the magnitude or the
two's-complement bits shifted by five. -/
theorem storeUpperFieldByMode : Obligations.StoreUpperFieldByMode := by
  intro policy imm h0 h1
  obtain ⟨p, rfl⟩ := exists_sval_eq (v := imm) (by omega) (by omega)
  have hmagnitude := toNat_splitSource_compat p
  have hbits := toInt_emod p
  have hslice := slice_sval p 11 5 (by omega)
  rw [← sval_eq_toInt] at hbits
  refine ⟨fun hnonneg => ⟨_, immHiS_sval .compat fun _ => ⟨h0, h1⟩, ?_, ?_, ?_⟩,
    fun hneg => ⟨_, immHiS_sval .compat fun _ => ⟨h0, h1⟩, ?_, ?_⟩,
    ⟨_, immHiS_sval .twos fun _ => ⟨h0, h1⟩, ?_, hslice.symm⟩⟩
  · rw [abs_of_nonneg hnonneg] at hmagnitude
    rw [immHiBitsS_toNat]
    omega
  · rw [sval_eq_toInt] at hnonneg
    rw [hslice, immHiBitsS, splitSource_of_nonneg hnonneg]
  · rw [abs_of_nonneg hnonneg] at hmagnitude
    rw [immHiBitsS_toNat]
    omega
  · rw [abs_of_neg hneg] at hmagnitude
    rw [immHiBitsS_toNat]
    omega
  · rw [abs_of_neg hneg] at hmagnitude
    rw [immHiBitsS_toNat]
    omega
  · rw [immHiBitsS_toNat, splitSource]
    omega

/-- Settles O29: both parts of the field are slices of the port. -/
theorem branchLowerField : Obligations.BranchLowerField := by
  intro policy p
  rw [immLoSB_sval, immLoBitsSB, toNat_append_add, slice_sval p 4 1 (by omega), bitOf,
    lowBits_floorShift_sval p 11 1 (by omega), Nat.mul_comm, Nat.pow_one]

/-! ### The SB upper field in `compat` mode -/

/-- The 8-bit mask of R68 and the 7-bit field leave six bits. -/
theorem and_mask_mod (n : Nat) : (n &&& 0b10111111) % 128 = n % 64 := by
  calc (n &&& 0b10111111) % 128 = (n &&& 0b10111111) &&& 127 :=
        (Nat.and_two_pow_sub_one_eq_mod _ 7).symm
    _ = n &&& 63 := Nat.and_assoc ..
    _ = n % 64 := Nat.and_two_pow_sub_one_eq_mod n 6

theorem band_natCast {n : Nat} (h : n < 2 ^ 32) (mask : Nat) :
    band (n : Int) mask = n &&& mask := by
  rw [band, lowBits_natCast, Nat.mod_eq_of_lt h]

/-- The value of the field from the magnitude shifted by five, which is at most 128 in range. -/
theorem immHiValueSB_compat_eq {imm : Int} (h0 : -4096 ≤ imm) (h1 : imm ≤ 4095) :
    immHiValueSB .compat imm = |imm|.toNat / 32 % 64 + if 4096 ≤ -imm then 128 else 0 := by
  have hmagnitude : arsCompat imm 5 = ((|imm|.toNat / 32 : Nat) : Int) := by
    rw [arsCompat_eq_abs, floorShift_eq]
    have habs := abs_nonneg imm
    omega
  have hle : |imm| ≤ 4096 := abs_le.mpr ⟨h0, by omega⟩
  rw [immHiValueSB, hmagnitude, band_natCast (by omega)]
  by_cases hminimum : imm = -4096
  · subst hminimum
    decide
  · have hlt : |imm| < 4096 := abs_lt.mpr ⟨by omega, by omega⟩
    have hmask := and_mask_mod (|imm|.toNat / 32)
    have hsmall : |imm|.toNat / 32 &&& 0b10111111 < 128 :=
      Nat.and_le_left.trans_lt (by omega)
    rw [Nat.mod_eq_of_lt hsmall] at hmask
    rw [hmask, if_neg (by omega), Nat.add_zero]

theorem slice_ten_five {v : Int} (h : 0 ≤ v) : slice v 10 5 = v.toNat / 32 % 64 := by
  obtain ⟨n, rfl⟩ := Int.eq_ofNat_of_zero_le h
  rw [slice, floorShift, ← Int.natCast_ediv, lowBits_natCast]
  rfl

/-- Settles O30: six bits of the magnitude, and bit 12 of it at -4096 alone, which 7 bits cannot
hold. -/
theorem branchUpperFieldCompat : Obligations.BranchUpperFieldCompat := by
  refine ⟨?_, ?_, by decide, by decide⟩
  · intro policy imm n h
    rw [immHiSB, pack] at h
    split at h
    · cases h
    · obtain rfl := Option.some.inj h
      have hmask := and_mask_mod (lowBits (arsCompat imm 5) 32)
      rw [lowBits_natCast, immHiValueSB, band]
      omega
  · intro imm h0 h1
    have hvalue := immHiValueSB_compat_eq h0 h1
    refine ⟨fun hnonneg => ?_, fun hneg => ?_, fun hminimum policy => ?_⟩
    · rw [hvalue, abs_of_nonneg hnonneg, slice_ten_five hnonneg, if_neg (by omega), Nat.add_zero]
    · rw [hvalue, abs_of_neg hneg, slice_ten_five (by omega)]
    · rw [if_neg (by omega)] at hvalue
      exact pack_natCast (by omega)

/-- Settles O31: the field is below 2^7 by its two parts, and bit 12 of an offset in range is its
sign. -/
theorem branchUpperFieldTwos : Obligations.BranchUpperFieldTwos := by
  intro policy imm h0 h1
  have hslice : slice imm 10 5 < 64 := lowBits_lt _ 6
  have hsign : bitOf imm 12 = if imm < 0 then 1 else 0 := by
    rw [bitOf, lowBits, floorShift_eq]
    split <;> omega
  have hfits : 64 * bitOf imm 12 + slice imm 10 5 < 128 := by
    rw [hsign]
    split <;> omega
  refine ⟨64 * bitOf imm 12 + slice imm 10 5, pack_natCast hfits, rfl, hfits, ?_⟩
  rw [hsign]
  split <;> omega

end Sys2Proof.Machine
end

section
/-! PROOFS of the statements about the immediates that S and SB words carry (42_s_format.md R122,
43_sb_format.md R132 to R135). -/

namespace Sys2Proof.Machine

/-! ### The immediate of an S word -/

/-- The two immediate fields of a format S word. -/
theorem encodeFields_formatS_imm {d : Descriptor} (h : d.layout = .S) (mode : ImmSplitMode)
    (x y z : Port) :
    (encodeFields mode d x y z).extractLsb' 25 7 = immHiBitsS mode z ∧
      (encodeFields mode d x y z).extractLsb' 7 5 = immLoBitsS z := by
  simp only [encodeFields, h]
  obtain ⟨hhi, -, -, -, hlo, -⟩ := fields_six (immHiBitsS mode z) (regBits y) (regBits x) d.funct3
    (immLoBitsS z) d.opcode
  exact ⟨hhi, hlo⟩

/-- The two immediate fields of a format SB word. -/
theorem encodeFields_formatSB_imm {d : Descriptor} (h : d.layout = .SB) (mode : ImmSplitMode)
    (x y z : Port) :
    (encodeFields mode d x y z).extractLsb' 25 7 = immHiBitsSB mode z ∧
      (encodeFields mode d x y z).extractLsb' 7 5 = immLoBitsSB z := by
  simp only [encodeFields, h]
  obtain ⟨hhi, -, -, -, hlo, -⟩ := fields_six (immHiBitsSB mode z) (regBits y) (regBits x) d.funct3
    (immLoBitsSB z) d.opcode
  exact ⟨hhi, hlo⟩

/-- `E`, the number in the immediate fields of an S word (42_s_format.md R122). -/
def storeField (mode : ImmSplitMode) (imm : Port) : Nat :=
  (immHiBitsS mode imm).toNat * 32 + (immLoBitsS imm).toNat

theorem storeField_eq (mode : ImmSplitMode) (imm : Port) :
    storeField mode imm = (splitSource mode imm).toNat / 32 % 128 * 32 + imm.toNat % 32 := by
  rw [storeField, immHiBitsS_toNat, immLoBitsS_toNat]

/-- Without a negative `compat` immediate, `E` is the immediate's low twelve bits. -/
theorem storeField_of_splitSource_eq {mode : ImmSplitMode} {imm : Port}
    (h : splitSource mode imm = imm) : (storeField mode imm : Int) = imm.toInt % 4096 := by
  have hbits := toInt_emod imm
  rw [storeField_eq, h]
  omega

theorem signExt_storeField_twos {imm : Port} (h0 : -2048 ≤ imm.toInt) (h1 : imm.toInt ≤ 2047) :
    signExt 12 (storeField .twos imm) = imm.toInt := by
  have hfield := storeField_of_splitSource_eq (mode := .twos) (imm := imm) rfl
  rw [signExt, lowBits_natCast]
  split <;> omega

/-- `E` of a negative immediate in `compat` mode: the magnitude's upper bits and the
two's-complement low bits. -/
theorem storeField_compat_of_neg {imm : Port} (h0 : -2048 ≤ imm.toInt) (h1 : imm.toInt < 0) :
    (storeField .compat imm : Int) = 32 * ((-imm.toInt) / 32) + imm.toInt % 32 := by
  have hmagnitude := toNat_splitSource_compat imm
  have hbits := toInt_emod imm
  rw [sval_eq_toInt, abs_of_neg h1] at hmagnitude
  rw [storeField_eq]
  omega

theorem toInt_ofNat_of_lt {n : Nat} (h : n < 2147483648) : (BitVec.ofNat 32 n).toInt = n := by
  rw [BitVec.toInt_eq_toNat_cond, BitVec.toNat_ofNat]
  split <;> omega

/-- The port that holds `E` itself has the same immediate fields. -/
theorem immBitsS_ofNat_storeField {imm : Port} (h : storeField .compat imm ≤ 2047) :
    immHiBitsS .compat (BitVec.ofNat 32 (storeField .compat imm)) = immHiBitsS .compat imm ∧
      immLoBitsS (BitVec.ofNat 32 (storeField .compat imm)) = immLoBitsS imm := by
  have hnonneg : 0 ≤ (BitVec.ofNat 32 (storeField .compat imm)).toInt := by
    rw [toInt_ofNat_of_lt (by omega)]
    omega
  have hhi := (immHiBitsS .compat imm).isLt
  have hlo := (immLoBitsS imm).isLt
  have hport : (BitVec.ofNat 32 (storeField .compat imm)).toNat = storeField .compat imm := by
    rw [BitVec.toNat_ofNat]
    omega
  constructor
  · apply BitVec.eq_of_toNat_eq
    rw [immHiBitsS_toNat, splitSource_of_nonneg hnonneg, hport, storeField]
    omega
  · apply BitVec.eq_of_toNat_eq
    rw [immLoBitsS_toNat, hport, storeField]
    omega

/-- The immediate range is the only condition of format S that speaks of the immediate. -/
theorem valuesFit_formatS_of_imm {mode : ImmSplitMode} {x y z z' : Port}
    (h : valuesFit mode .S (sval x, sval y, sval z)) (h0 : -2048 ≤ z'.toInt)
    (h1 : z'.toInt ≤ 2047) : valuesFit mode .S (sval x, sval y, sval z') := by
  obtain ⟨hx, hy, -⟩ := h
  rw [← sval_eq_toInt] at h0 h1
  exact ⟨hx, hy, h0, h1⟩

/-- A smaller `E` is the word of the non-negative immediate `E` too (42_s_format.md R122). -/
theorem encodeBlock_ofNat_storeField {b : Build} {m : Mnemonic} {x y z : Port}
    (hlayout : (b.table.row m).layout = .S) (hsplit : b.split = .compat)
    (herr : (encodeBlock b ⟨m.selector, x, y, z⟩).err = 0) (h : storeField .compat z ≤ 2047) :
    encodeBlock b ⟨m.selector, x, y, BitVec.ofNat 32 (storeField .compat z)⟩ =
      encodeBlock b ⟨m.selector, x, y, z⟩ := by
  have hfit := valuesFit_of_err_eq_zero herr
  obtain ⟨hhi, hlo⟩ := immBitsS_ofNat_storeField h
  have hvalue := toInt_ofNat_of_lt (n := storeField .compat z) (by omega)
  rw [encodeBlock_of_valuesFit hfit, encodeBlock_of_valuesFit fun hreject => ?_]
  · simp only [encodeFields, hlayout, hsplit, hhi, hlo]
  · have hfitS := hfit hreject
    rw [hlayout] at hfitS ⊢
    exact valuesFit_formatS_of_imm hfitS (by omega) (by omega)

/-- Settles O32: `E` is the number in the immediate fields of the word; the rest is arithmetic. -/
theorem storeWordCarriesImmediate : Obligations.StoreWordCarriesImmediate := by
  intro b m rs1 rs2 imm hlayout h0 h1 herr w e
  have he : e = storeField b.split imm := by
    obtain ⟨hhi, hlo⟩ := encodeFields_formatS_imm hlayout b.split rs1 rs2 imm
    simp only [e, w, word_of_err_eq_zero herr, hhi, hlo, storeField]
  rw [he]
  refine ⟨fun hsplit => ?_, fun hsplit hnonneg => ?_, fun hsplit hneg => ?_⟩ <;> rw [hsplit]
  · exact ⟨storeField_of_splitSource_eq rfl, (signExt_storeField_twos h0 h1).symm⟩
  · rw [storeField_of_splitSource_eq (splitSource_of_nonneg hnonneg .compat)]
    omega
  · have hfield := storeField_compat_of_neg h0 hneg
    refine ⟨hfield, ?_, ?_, ?_, ?_, ?_, encodeBlock_ofNat_storeField hlayout hsplit herr⟩ <;> omega

/-! ### The offset of an SB word -/

/-- The 13 offset bits of an SB word (43_sb_format.md R132). -/
def branchBits (w : Word) : BitVec 13 :=
  w.extractLsb' 31 1 ++ w.extractLsb' 7 1 ++ w.extractLsb' 25 6 ++ w.extractLsb' 8 4 ++ 0#1

/-- The parts of the two immediate fields of an SB word. -/
theorem branchFields_extract (w : Word) :
    w.extractLsb' 31 1 = (w.extractLsb' 25 7).extractLsb' 6 1 ∧
      w.extractLsb' 25 6 = (w.extractLsb' 25 7).extractLsb' 0 6 ∧
      w.extractLsb' 8 4 = (w.extractLsb' 7 5).extractLsb' 1 4 ∧
      w.extractLsb' 7 1 = (w.extractLsb' 7 5).extractLsb' 0 1 :=
  ⟨extract_within w 25 7 6 1 (by omega), extract_within w 25 7 0 6 (by omega),
    extract_within w 7 5 1 4 (by omega), extract_within w 7 5 0 1 (by omega)⟩

/-- The offset bits as a number, from the two immediate fields. -/
theorem branchBits_toNat (w : Word) :
    (branchBits w).toNat = (w.extractLsb' 25 7).toNat / 64 * 4096 +
      (w.extractLsb' 7 5).toNat % 2 * 2048 + (w.extractLsb' 25 7).toNat % 64 * 32 +
      (w.extractLsb' 7 5).toNat / 2 * 2 := by
  obtain ⟨hsign, hupper, hlower, hbit⟩ := branchFields_extract w
  have hhi := (w.extractLsb' 25 7).isLt
  have hlo := (w.extractLsb' 7 5).isLt
  rw [branchBits, toNat_append_add, toNat_append_add, toNat_append_add, toNat_append_add, hsign,
    hupper, hlower, hbit]
  generalize w.extractLsb' 25 7 = hi at hhi ⊢
  generalize w.extractLsb' 7 5 = lo at hlo ⊢
  simp only [BitVec.extractLsb'_toNat, Nat.shiftRight_eq_div_pow, BitVec.toNat_ofNat]
  omega

/-- Bit 31 of a word is the top bit of the field 31:25. -/
theorem msb_iff_upperField (w : Word) : w.msb = true ↔ 64 ≤ (w.extractLsb' 25 7).toNat := by
  have hlt := w.isLt
  rw [BitVec.msb_eq_decide, decide_eq_true_eq, BitVec.extractLsb'_toNat, Nat.shiftRight_eq_div_pow]
  omega

/-- In `compat` mode the mask of R68 keeps bit 31 clear. -/
theorem msb_encodeFields_compat {d : Descriptor} (h : d.layout = .SB) (x y z : Port) :
    (encodeFields .compat d x y z).msb = false := by
  obtain ⟨hhi, -⟩ := encodeFields_formatSB_imm h .compat x y z
  rw [Bool.eq_false_iff, ne_eq, msb_iff_upperField, hhi, immHiBitsSB_compat_toNat]
  omega

/-- In `twos` mode bit 31 is the sign of an offset in range. -/
theorem msb_encodeFields_twos {d : Descriptor} (h : d.layout = .SB) (x y : Port) {z : Port}
    (h0 : -4096 ≤ z.toInt) (h1 : z.toInt ≤ 4095) :
    (encodeFields .twos d x y z).msb = true ↔ z.toInt < 0 := by
  obtain ⟨hhi, -⟩ := encodeFields_formatSB_imm h .twos x y z
  have hbits := toInt_emod z
  rw [msb_iff_upperField, hhi, immHiBitsSB_twos_toNat]
  omega

/-- A number below 2^13 put together from the bits that the SB fields hold, but bit 0. -/
theorem branchFields_sum (n : Nat) :
    (n / 4096 % 2 * 64 + n / 32 % 64) / 64 * 4096 +
      (n / 2 % 16 * 2 + n / 2048 % 2) % 2 * 2048 +
      (n / 4096 % 2 * 64 + n / 32 % 64) % 64 * 32 +
      (n / 2 % 16 * 2 + n / 2048 % 2) / 2 * 2 = n % 8192 / 2 * 2 := by
  have hdiv : n / 2 / 16 = n / 32 ∧ n / 32 / 64 = n / 2048 ∧ n / 2048 / 2 = n / 4096 := by
    simp only [Nat.div_div_eq_div_mul, and_self, Nat.reduceMul]
  have hcut : (n / 4096 % 2 * 64 + n / 32 % 64) / 64 = n / 4096 % 2 ∧
      (n / 2 % 16 * 2 + n / 2048 % 2) / 2 = n / 2 % 16 := by omega
  omega

/-- In `twos` mode the offset bits are the low thirteen bits of the offset with bit 0 cleared. -/
theorem branchBits_encodeFields_twos {d : Descriptor} (h : d.layout = .SB) (x y z : Port) :
    (branchBits (encodeFields .twos d x y z)).toNat = z.toNat % 8192 / 2 * 2 := by
  obtain ⟨hhi, hlo⟩ := encodeFields_formatSB_imm h .twos x y z
  rw [branchBits_toNat, hhi, hlo, immHiBitsSB_twos_toNat, immLoBitsSB_toNat, branchFields_sum]

/-- Settles O33: the offset bits are the offset's own but bit 0, and bit 31 is the sign. -/
theorem branchWordCarriesOffset : Obligations.BranchWordCarriesOffset := by
  intro b m rs1 rs2 imm hlayout hsplit h0 h1 herr w
  have hw : w = encodeFields .twos (b.table.row m) rs1 rs2 imm :=
    (word_of_err_eq_zero herr).trans (by rw [hsplit])
  rw [hw]
  refine ⟨?_, msb_encodeFields_twos hlayout rs1 rs2 h0 h1⟩
  change (branchBits _).toInt = _
  have hbits := toInt_emod imm
  rw [BitVec.toInt_eq_toNat_cond, branchBits_encodeFields_twos hlayout]
  split <;> omega

/-! ### Odd offsets -/

theorem toNat_sub_one_of_odd {imm : Port} (hodd : imm.toInt % 2 = 1) :
    (imm - 1).toNat = imm.toNat - 1 := by
  have hbits := toInt_emod imm
  have hlt := imm.isLt
  have hone : (1 : Port).toNat = 1 := rfl
  rw [BitVec.toNat_sub, hone]
  omega

theorem toInt_sub_one_of_odd {imm : Port} (hodd : imm.toInt % 2 = 1) :
    (imm - 1).toInt = imm.toInt - 1 := by
  have hnat := toNat_sub_one_of_odd hodd
  have hbits := toInt_emod imm
  have hbitsSub := toInt_emod (imm - 1)
  have hbounds := sval_bounds imm
  have hboundsSub := sval_bounds (imm - 1)
  rw [sval_eq_toInt] at hbounds hboundsSub
  omega

/-- Bit 0 of an offset is in no field, where the magnitude is not taken (43_sb_format.md R133). -/
theorem immBitsSB_sub_one_of_odd {mode : ImmSplitMode} {imm : Port} (hodd : imm.toInt % 2 = 1)
    (h : mode = .twos ∨ 0 ≤ imm.toInt) :
    immHiBitsSB mode (imm - 1) = immHiBitsSB mode imm ∧
      immLoBitsSB (imm - 1) = immLoBitsSB imm := by
  have hbits := toInt_emod imm
  have hnat := toNat_sub_one_of_odd hodd
  refine ⟨BitVec.eq_of_toNat_eq ?_, BitVec.eq_of_toNat_eq ?_⟩
  · cases mode with
    | twos =>
      rw [immHiBitsSB_twos_toNat, immHiBitsSB_twos_toNat, hnat]
      omega
    | compat =>
      have hnonneg : 0 ≤ imm.toInt := h.resolve_left nofun
      have hsub := toInt_sub_one_of_odd hodd
      have hnonnegSub : 0 ≤ (imm - 1).toInt := by omega
      rw [immHiBitsSB_compat_toNat, immHiBitsSB_compat_toNat, splitSource_of_nonneg hnonneg,
        splitSource_of_nonneg hnonnegSub, hnat]
      omega
  · rw [immLoBitsSB_toNat, immLoBitsSB_toNat, hnat]
    omega

theorem valuesFit_formatSB_of_odd (mode : ImmSplitMode) {x y z : Port} (hx : regInRange x = true)
    (hy : regInRange y = true) (h0 : -4096 ≤ z.toInt) (h1 : z.toInt ≤ 4095)
    (hminimum : z.toInt ≠ -4096 ∨ mode = .twos) :
    valuesFit mode .SB (sval x, sval y, sval z) := by
  rw [valuesFit_formatSB, imm13InRange_iff_toInt]
  refine ⟨hx, hy, ⟨h0, h1⟩, ?_⟩
  rintro ⟨rfl, hz⟩
  exact hminimum.elim (absurd hz) nofun

/-- Settles O34: an odd offset in range is not -4096, and its bit 0 is in no field. -/
theorem oddBranchOffsetsAccepted : Obligations.OddBranchOffsetsAccepted := by
  intro b m rs1 rs2 imm hlayout hrs1 hrs2 h0 h1 hodd
  have hfit : valuesFit b.split (b.table.row m).layout (sval rs1, sval rs2, sval imm) := by
    rw [hlayout]
    exact valuesFit_formatSB_of_odd _ hrs1 hrs2 h0 h1 (.inl (by omega))
  rw [encodeBlock_of_valuesFit fun _ => hfit]
  refine ⟨rfl, fun hwhere => ?_⟩
  have hsub := toInt_sub_one_of_odd hodd
  have hfitSub : valuesFit b.split (b.table.row m).layout (sval rs1, sval rs2, sval (imm - 1)) := by
    rw [hlayout]
    refine valuesFit_formatSB_of_odd _ hrs1 hrs2 (by omega) (by omega) ?_
    exact hwhere.elim .inr fun hnonneg => .inl (by omega)
  obtain ⟨hhi, hlo⟩ := immBitsSB_sub_one_of_odd hodd hwhere
  rw [encodeBlock_of_valuesFit fun _ => hfitSub]
  simp only [encodeFields, hlayout, hhi, hlo]

/-! ### SB words in `compat` mode -/

/-- Bit 31 of an SB word is never set in `compat` mode, whatever the operands. -/
theorem msb_word_compat {b : Build} {m : Mnemonic} (hlayout : (b.table.row m).layout = .SB)
    (hsplit : b.split = .compat) (x y z : Port) :
    (encodeBlock b ⟨m.selector, x, y, z⟩).word.msb = false := by
  obtain hzero | hword := word_eq_zero_or_encodeFields b m x y z
  · rw [hzero]
    rfl
  · rw [hword, hsplit, msb_encodeFields_compat hlayout]

/-- Settles O35: the mask keeps bit 31 clear, the modes agree on [0, 4095], and below 0 the upper
field is the magnitude's. -/
theorem branchWordInCompatMode : Obligations.BranchWordInCompatMode := by
  intro b m rs1 rs2 imm hlayout hsplit w
  refine ⟨msb_word_compat hlayout hsplit rs1 rs2 imm, fun h0 h1 => ?_, fun _ _ herr => ?_⟩
  · have hmodes := splitModeOnlyChangesNegativeImmediates b m rs1 rs2 imm fun _ => ⟨h0, h1⟩
    rw [hmodes, ← hsplit]
  · have hw : w = encodeFields .compat (b.table.row m) rs1 rs2 imm :=
      (word_of_err_eq_zero herr).trans (by rw [hsplit])
    obtain ⟨hhi, hlo⟩ := encodeFields_formatSB_imm hlayout .compat rs1 rs2 imm
    have hsource : (if imm.toInt < 0 then -imm else imm) = splitSource .compat imm := by
      simp only [splitSource, msb_iff_neg]
    obtain ⟨-, hupper, hlower, hbit⟩ := branchFields_extract w
    rw [hsource, hupper, hlower, hbit, hw, hhi, hlo, immHiBitsSB, immLoBitsSB]
    exact ⟨BitVec.extractLsb'_append_eq_right, BitVec.extractLsb'_append_eq_left,
      BitVec.extractLsb'_append_eq_right⟩

/-- Refutes O36: the `compat` word of -2079 has zero in every immediate bit, since the magnitude
2079 has zero in bits 10:5 and -2079 in bits 4:1 and 11; it reads as offset 0. -/
theorem not_compatNegativeOffsetReadsPositive :
    ¬ Obligations.CompatNegativeOffsetReadsPositive := by
  intro h
  have hpositive := h Build.hardware 1 2 (-2079) rfl rfl (by decide) (by decide) (by decide)
  revert hpositive
  decide

/-! ### The source's two properties -/

theorem immBitsSB_zero (mode : ImmSplitMode) :
    immHiBitsSB mode 0 = 0 ∧ immLoBitsSB 0 = 0 := by
  cases mode <;> decide

/-- Settles O37: the fields of offset 0 are zero, and the sign and bit 11 of an offset in range show
in bits 31 and 7 in `twos` mode. -/
theorem branchOffsetProperties : Obligations.BranchOffsetProperties := by
  intro b m rs1 rs2 imm hlayout w
  refine ⟨?_, fun herr hsplit => ?_, fun hsplit => msb_word_compat hlayout hsplit rs1 rs2 imm⟩
  · rintro rfl
    obtain hzero | hword := word_eq_zero_or_encodeFields b m rs1 rs2 0
    · rw [show w = 0 from hzero]
      decide
    · obtain ⟨hhi, hlo⟩ := encodeFields_formatSB_imm hlayout b.split rs1 rs2 0
      rw [show w = _ from hword, hhi, hlo]
      exact immBitsSB_zero b.split
  · have hw : w = encodeFields .twos (b.table.row m) rs1 rs2 imm :=
      (word_of_err_eq_zero herr).trans (by rw [hsplit])
    rw [hw]
    constructor
    · intro h0 hneg
      exact (msb_encodeFields_twos hlayout rs1 rs2 h0 (by omega)).mpr hneg
    · intro h0 h1
      have hsign := msb_encodeFields_twos hlayout rs1 rs2 (by omega) h1
      obtain ⟨-, hlo⟩ := encodeFields_formatSB_imm hlayout .twos rs1 rs2 imm
      refine ⟨by rw [Bool.eq_false_iff, ne_eq, hsign]; omega, ?_⟩
      have hbits := toInt_emod imm
      have hfield := congrArg BitVec.toNat hlo
      rw [immLoBitsSB_toNat, BitVec.extractLsb'_toNat, Nat.shiftRight_eq_div_pow] at hfield
      rw [BitVec.getLsbD, Nat.testBit_eq_decide_div_mod_eq, decide_eq_true_eq]
      omega

end Sys2Proof.Machine
end

section
/-! PROOFS of the statements about the rows that words match and about the word decoder
(30_encoding.md R80, R81; the word decoder is the model's own, log 7). -/

namespace Sys2Proof.Machine

/-! ### The row of a word -/

theorem matchesWord_iff (d : Descriptor) (w : Word) :
    d.matchesWord w = true ↔ w.extractLsb' 0 7 = d.opcode ∧ w.extractLsb' 12 3 = d.funct3 ∧
      ∀ f7, d.layout = .R f7 → w.extractLsb' 25 7 = f7 := by
  rw [Descriptor.matchesWord]
  cases d.layout <;> simp [and_assoc]

/-- A row's own words match it (30_encoding.md R80). -/
theorem matchesWord_encodeFields (mode : ImmSplitMode) (d : Descriptor) (x y z : Port) :
    d.matchesWord (encodeFields mode d x y z) = true := by
  rw [matchesWord_iff, encodeFields]
  cases d.layout with
  | R f7 =>
    obtain ⟨hf7, -, -, hf3, -, hop⟩ := fields_six f7 (regBits z) (regBits y) d.funct3 (regBits x)
      d.opcode
    exact ⟨hop, hf3, fun _ h => hf7.trans (Layout.R.inj h)⟩
  | I =>
    obtain ⟨-, -, hf3, -, hop⟩ := fields_five (z.extractLsb' 0 12) (regBits y) d.funct3 (regBits x)
      d.opcode
    exact ⟨hop, hf3, nofun⟩
  | S =>
    obtain ⟨-, -, -, hf3, -, hop⟩ := fields_six (immHiBitsS mode z) (regBits y) (regBits x) d.funct3
      (immLoBitsS z) d.opcode
    exact ⟨hop, hf3, nofun⟩
  | SB =>
    obtain ⟨-, -, -, hf3, -, hop⟩ := fields_six (immHiBitsSB mode z) (regBits y) (regBits x)
      d.funct3 (immLoBitsSB z) d.opcode
    exact ⟨hop, hf3, nofun⟩

/-- With the table of R74 the opcode and funct3 tell the rows apart. -/
theorem descriptorTable_row_inj {m n : Mnemonic}
    (hopcode : (descriptorTable.row n).opcode = (descriptorTable.row m).opcode)
    (hfunct3 : (descriptorTable.row n).funct3 = (descriptorTable.row m).funct3) : n = m := by
  revert hopcode hfunct3
  cases n <;> cases m <;> decide

/-- A word matches at most one row of the table of R74. -/
theorem matchesWord_unique {m n : Mnemonic} {w : Word}
    (hm : (descriptorTable.row m).matchesWord w = true)
    (hn : (descriptorTable.row n).matchesWord w = true) : n = m := by
  obtain ⟨hmOpcode, hmFunct3, -⟩ := (matchesWord_iff _ w).mp hm
  obtain ⟨hnOpcode, hnFunct3, -⟩ := (matchesWord_iff _ w).mp hn
  exact descriptorTable_row_inj (hnOpcode.symm.trans hmOpcode) (hnFunct3.symm.trans hmFunct3)

theorem matchesWord_iff_eq {m : Mnemonic} {w : Word}
    (hm : (descriptorTable.row m).matchesWord w = true) (n : Mnemonic) :
    (descriptorTable.row n).matchesWord w = true ↔ n = m :=
  ⟨matchesWord_unique hm, fun h => h ▸ hm⟩

/-- Settles O38: the word is the bit layout's, which holds the numbers of the selected row. -/
theorem builtWordMatchesExactlyOneRow : Obligations.BuiltWordMatchesExactlyOneRow := by
  rintro b ⟨sel, x, y, z⟩ htable
  refine ⟨?_, fun herr => ?_⟩
  · rintro (rfl : sel = 7)
    rw [encodeBlock_unassigned]
  · have hsel : sel ≠ 7 := by
      rintro rfl
      rw [encodeBlock_unassigned] at herr
      exact absurd herr (by decide : (1 : BitVec 2) ≠ 0)
    obtain ⟨m, rfl⟩ := Mnemonic.exists_selector_eq hsel
    refine ⟨m, rfl, ?_⟩
    rw [word_of_err_eq_zero herr, htable]
    exact matchesWord_iff_eq (matchesWord_encodeFields _ _ x y z)

theorem Mnemonic.mem_all (m : Mnemonic) : m ∈ Mnemonic.all := by cases m <;> decide

/-- The first row a word matches is the one row it matches. -/
theorem rowOfWord_eq_some_iff {w : Word} {m : Mnemonic} :
    descriptorTable.rowOfWord w = some m ↔ (descriptorTable.row m).matchesWord w = true := by
  constructor
  · exact fun h => List.find?_some (p := fun n => (descriptorTable.row n).matchesWord w) h
  · intro h
    cases hrow : descriptorTable.rowOfWord w with
    | none => exact absurd h (List.find?_eq_none.mp hrow m (Mnemonic.mem_all m))
    | some n =>
      have hn := List.find?_some (p := fun n => (descriptorTable.row n).matchesWord w) hrow
      rw [matchesWord_unique h hn]

/-- The word decoder on a word of a known row. -/
theorem decodeWord_of_matchesWord (mode : ImmSplitMode) {w : Word} {m : Mnemonic}
    (h : (descriptorTable.row m).matchesWord w = true) :
    decodeWord mode descriptorTable w =
      (decodeOperands mode (descriptorTable.row m) w).map
        (fun o => Instr.of m o.1 o.2.1 o.2.2) := by
  rw [decodeWord, rowOfWord_eq_some_iff.mpr h]

/-- What the word decoder reads comes from the row that the word matches and the operands it
carries. -/
theorem decodeWord_eq_ok {mode : ImmSplitMode} {w : Word} {i : Instr}
    (h : decodeWord mode descriptorTable w = .ok i) :
    ∃ m x y z, (descriptorTable.row m).matchesWord w = true ∧
      decodeOperands mode (descriptorTable.row m) w = .ok (x, y, z) ∧ i = Instr.of m x y z := by
  rw [decodeWord] at h
  cases hrow : descriptorTable.rowOfWord w with
  | none => simp [hrow] at h
  | some m =>
    simp only [hrow] at h
    cases hops : decodeOperands mode (descriptorTable.row m) w with
    | error e => simp [hops, Except.map] at h
    | ok o =>
      obtain ⟨x, y, z⟩ := o
      simp only [hops, Except.map, Except.ok.injEq] at h
      exact ⟨m, x, y, z, rowOfWord_eq_some_iff.mp hrow, hops, h.symm⟩

/-! ### Register fields -/

theorem regInRange_iff_toNat (r : Port) : regInRange r = true ↔ r.toNat < 32 := by
  have hbits := toInt_emod r
  have hbounds := sval_bounds r
  rw [regInRange_iff]
  rw [sval_eq_toInt] at hbounds ⊢
  omega

theorem regInRange_setWidth (x : BitVec 5) : regInRange (x.setWidth 32) = true := by
  have hlt := x.isLt
  rw [regInRange_iff_toNat, BitVec.toNat_setWidth]
  omega

theorem regBits_setWidth (x : BitVec 5) : regBits (x.setWidth 32) = x := by
  have hlt := x.isLt
  apply BitVec.eq_of_toNat_eq
  rw [regBits, BitVec.extractLsb'_toNat, BitVec.toNat_setWidth, Nat.shiftRight_zero]
  omega

/-- A register field holds an index in range whole (30_encoding.md R70). -/
theorem setWidth_regBits {r : Port} (h : regInRange r = true) : (regBits r).setWidth 32 = r := by
  rw [regInRange_iff_toNat] at h
  apply BitVec.eq_of_toNat_eq
  rw [BitVec.toNat_setWidth, regBits, BitVec.extractLsb'_toNat, Nat.shiftRight_zero]
  omega

/-! ### Immediate fields -/

theorem toInt_signExtend_port {n : Nat} (h : n ≤ 32) (e : BitVec n) :
    (e.signExtend 32).toInt = e.toInt := BitVec.toInt_signExtend_of_le h

/-- An immediate is read back from a field of its low bits that has its sign. -/
theorem signExtend_eq_of_toInt_eq {n : Nat} (h : n ≤ 32) {e : BitVec n} {imm : Port}
    (he : e.toInt = imm.toInt) : e.signExtend 32 = imm :=
  BitVec.eq_of_toInt_eq ((toInt_signExtend_port h e).trans he)

/-- The immediate field of format I holds an immediate in range whole. -/
theorem signExtend_extract_of_range {imm : Port} (h : imm12InRange imm = true) :
    (imm.extractLsb' 0 12).signExtend 32 = imm := by
  obtain ⟨h0, h1⟩ := (imm12InRange_iff_toInt imm).mp h
  have hbits := toInt_emod imm
  apply signExtend_eq_of_toInt_eq (by omega)
  rw [BitVec.toInt_eq_toNat_cond, BitVec.extractLsb'_toNat, Nat.shiftRight_zero]
  split <;> omega

theorem imm12InRange_signExtend (e : BitVec 12) : imm12InRange (e.signExtend 32) = true := by
  have hlt := e.isLt
  rw [imm12InRange_iff_toInt, toInt_signExtend_port (by omega), BitVec.toInt_eq_toNat_cond]
  split <;> omega

theorem imm13InRange_signExtend (e : BitVec 13) : imm13InRange (e.signExtend 32) = true := by
  have hlt := e.isLt
  rw [imm13InRange_iff_toInt, toInt_signExtend_port (by omega), BitVec.toInt_eq_toNat_cond]
  split <;> omega

theorem extract_signExtend (e : BitVec 12) : (e.signExtend 32).extractLsb' 0 12 = e := by
  have hlt := e.isLt
  have hbits := toInt_emod (e.signExtend 32)
  rw [toInt_signExtend_port (by omega), BitVec.toInt_eq_toNat_cond] at hbits
  apply BitVec.eq_of_toNat_eq
  rw [BitVec.extractLsb'_toNat, Nat.shiftRight_zero]
  split at hbits <;> omega

/-! ### The S offset -/

/-- The 12 offset bits of an S word (42_s_format.md R122). -/
def storeBits (w : Word) : BitVec 12 := w.extractLsb' 25 7 ++ w.extractLsb' 7 5

theorem storeBits_toNat (w : Word) :
    (storeBits w).toNat = (w.extractLsb' 25 7).toNat * 32 + (w.extractLsb' 7 5).toNat :=
  toNat_append_add ..

/-- Everything the S offset decoder answers: the offset bits sign-extended, or in `compat` mode a
rejection above 2048. -/
theorem decodeOffsetS_cases (mode : ImmSplitMode) (w : Word) :
    ((mode = .compat → (storeBits w).toNat ≤ 2048) ∧
      decodeOffsetS mode w = .ok ((storeBits w).signExtend 32)) ∨
    ((mode = .compat ∧ 2048 < (storeBits w).toNat) ∧
      decodeOffsetS mode w = .error .notProducedInCompat) := by
  cases mode with
  | twos => exact .inl ⟨nofun, rfl⟩
  | compat =>
    by_cases h : (storeBits w).toNat ≤ 2048
    · exact .inl ⟨fun _ => h, if_pos h⟩
    · exact .inr ⟨⟨rfl, not_le.mp h⟩, if_neg h⟩

/-- A store's word, read back, where `compat` mode keeps the immediate (42_s_format.md R122). -/
theorem decodeOffsetS_encodeFields {mode : ImmSplitMode} {d : Descriptor} {x y z : Port}
    (hlayout : d.layout = .S) (himm : imm12InRange z = true)
    (hwhole : mode = .compat → 0 ≤ z.toInt ∨ z.toInt = -2048) :
    decodeOffsetS mode (encodeFields mode d x y z) = .ok z := by
  obtain ⟨h0, h1⟩ := (imm12InRange_iff_toInt z).mp himm
  obtain ⟨hhi, hlo⟩ := encodeFields_formatS_imm hlayout mode x y z
  have hfield : (storeBits (encodeFields mode d x y z)).toNat = storeField mode z := by
    rw [storeBits_toNat, hhi, hlo, storeField]
  have hvalue : (storeField mode z : Int) = z.toInt % 4096 := by
    cases mode with
    | twos => exact storeField_of_splitSource_eq rfl
    | compat =>
      obtain hnonneg | hminimum := hwhole rfl
      · exact storeField_of_splitSource_eq (splitSource_of_nonneg hnonneg _)
      · rw [storeField_compat_of_neg h0 (by omega), hminimum]
        rfl
  obtain ⟨-, hok⟩ | ⟨⟨hcompat, hbig⟩, -⟩ := decodeOffsetS_cases mode (encodeFields mode d x y z)
  · rw [hok, signExtend_eq_of_toInt_eq (imm := z) (by omega)]
    rw [BitVec.toInt_eq_toNat_cond, hfield]
    split <;> omega
  · have hor := hwhole hcompat
    omega

/-- What the S offset decoder reads is in range and has the fields it was read from. -/
theorem immBitsS_of_decodeOffsetS {mode : ImmSplitMode} {w : Word} {z : Port}
    (h : decodeOffsetS mode w = .ok z) :
    imm12InRange z = true ∧ immHiBitsS mode z = w.extractLsb' 25 7 ∧
      immLoBitsS z = w.extractLsb' 7 5 := by
  obtain ⟨hsmall, hok⟩ | ⟨-, herror⟩ := decodeOffsetS_cases mode w
  · obtain rfl : (storeBits w).signExtend 32 = z := by
      rw [hok, Except.ok.injEq] at h
      exact h
    have hfield := storeBits_toNat w
    have hhi := (w.extractLsb' 25 7).isLt
    have hlo := (w.extractLsb' 7 5).isLt
    have hvalue := toInt_signExtend_port (by omega) (storeBits w)
    have hbits := toInt_emod ((storeBits w).signExtend 32)
    rw [BitVec.toInt_eq_toNat_cond (x := storeBits w)] at hvalue
    refine ⟨imm12InRange_signExtend _, BitVec.eq_of_toNat_eq ?_, BitVec.eq_of_toNat_eq ?_⟩
    · rw [immHiBitsS_toNat]
      cases mode with
      | twos =>
        rw [splitSource]
        split at hvalue <;> omega
      | compat =>
        have hmagnitude := toNat_splitSource_compat ((storeBits w).signExtend 32)
        have hle := hsmall rfl
        rw [sval_eq_toInt] at hmagnitude
        split at hvalue
        · rw [abs_of_nonneg (by omega)] at hmagnitude
          omega
        · rw [abs_of_neg (by omega)] at hmagnitude
          omega
    · rw [immLoBitsS_toNat]
      split at hvalue <;> omega
  · rw [herror] at h
    cases h

/-! ### The SB offset -/

/-- Everything the SB offset decoder answers: the offset bits sign-extended, or in `compat` mode a
rejection of bit 31. -/
theorem decodeOffsetSB_cases (mode : ImmSplitMode) (w : Word) :
    ((mode = .compat → (branchBits w).toNat < 4096) ∧
      decodeOffsetSB mode w = .ok ((branchBits w).signExtend 32)) ∨
    ((mode = .compat ∧ 4096 ≤ (branchBits w).toNat) ∧
      decodeOffsetSB mode w = .error .notProducedInCompat) := by
  cases mode with
  | twos => exact .inl ⟨nofun, rfl⟩
  | compat =>
    have hmsb : (branchBits w).msb = true ↔ 4096 ≤ (branchBits w).toNat := by
      rw [BitVec.msb_eq_decide, decide_eq_true_eq]
    by_cases h : 4096 ≤ (branchBits w).toNat
    · exact .inr ⟨⟨rfl, h⟩, if_pos (hmsb.mpr h)⟩
    · exact .inl ⟨fun _ => not_le.mp h, if_neg (hmsb.not.mpr h)⟩

/-- A branch's word, read back, where the offset is even and `compat` mode keeps it
(43_sb_format.md R132, R134). -/
theorem decodeOffsetSB_encodeFields {mode : ImmSplitMode} {d : Descriptor} {x y z : Port}
    (hlayout : d.layout = .SB) (himm : imm13InRange z = true) (heven : z.toInt % 2 = 0)
    (hnonneg : mode = .compat → 0 ≤ z.toInt) :
    decodeOffsetSB mode (encodeFields mode d x y z) = .ok z := by
  obtain ⟨h0, h1⟩ := (imm13InRange_iff_toInt z).mp himm
  have hbits := toInt_emod z
  have htwos : encodeFields mode d x y z = encodeFields .twos d x y z := by
    cases mode with
    | twos => rfl
    | compat =>
      exact (encodeFields_twos_eq_compat d.opcode d.funct3 d.shape x y
        fun _ => ⟨hnonneg rfl, h1⟩).symm
  have hfield := branchBits_encodeFields_twos hlayout x y z
  rw [← htwos] at hfield
  obtain ⟨-, hok⟩ | ⟨⟨hcompat, hbig⟩, -⟩ := decodeOffsetSB_cases mode (encodeFields mode d x y z)
  · rw [hok, signExtend_eq_of_toInt_eq (imm := z) (by omega)]
    rw [BitVec.toInt_eq_toNat_cond, hfield]
    split <;> omega
  · have hsign := hnonneg hcompat
    omega

/-- The bits of a number below 2^13 by the places of the SB fields. -/
theorem branchFields_cut {n sign bit upper lower : Nat} (hbit : bit < 2)
    (hupper : upper < 64) (hlower : lower < 16)
    (h : n % 8192 = sign * 4096 + bit * 2048 + upper * 32 + lower * 2) :
    n / 4096 % 2 = sign ∧ n / 2048 % 2 = bit ∧ n / 32 % 64 = upper ∧ n / 2 % 16 = lower := by
  refine ⟨?_, ?_, ?_, ?_⟩ <;> omega

/-- What the SB offset decoder reads is in range, and has the fields it was read from; in `compat`
mode it is not negative. -/
theorem immBitsSB_of_decodeOffsetSB {mode : ImmSplitMode} {w : Word} {z : Port}
    (h : decodeOffsetSB mode w = .ok z) :
    imm13InRange z = true ∧ immHiBitsSB mode z = w.extractLsb' 25 7 ∧
      immLoBitsSB z = w.extractLsb' 7 5 ∧ (mode = .compat → 0 ≤ z.toInt) := by
  obtain ⟨hsmall, hok⟩ | ⟨-, herror⟩ := decodeOffsetSB_cases mode w
  · obtain rfl : (branchBits w).signExtend 32 = z := by
      rw [hok, Except.ok.injEq] at h
      exact h
    have hfield := branchBits_toNat w
    have hhi := (w.extractLsb' 25 7).isLt
    have hlo := (w.extractLsb' 7 5).isLt
    have hvalue := toInt_signExtend_port (by omega) (branchBits w)
    have hbits := toInt_emod ((branchBits w).signExtend 32)
    rw [BitVec.toInt_eq_toNat_cond (x := branchBits w)] at hvalue
    have hnonneg : mode = .compat → 0 ≤ ((branchBits w).signExtend 32).toInt := by
      intro hcompat
      have hlt := hsmall hcompat
      split at hvalue <;> omega
    have hlow : ((branchBits w).signExtend 32).toNat % 8192 = (branchBits w).toNat := by
      split at hvalue <;> omega
    obtain ⟨hcutSign, hcutBit, hcutUpper, hcutLower⟩ := branchFields_cut (by omega) (by omega)
      (by omega) (hlow.trans hfield)
    refine ⟨imm13InRange_signExtend _, BitVec.eq_of_toNat_eq ?_, BitVec.eq_of_toNat_eq ?_, hnonneg⟩
    · have htwos : immHiBitsSB mode ((branchBits w).signExtend 32) =
          immHiBitsSB .twos ((branchBits w).signExtend 32) := by
        cases mode with
        | twos => rfl
        | compat =>
          have hlt := hsmall rfl
          exact (immHiBitsSB_of_nonneg (hnonneg rfl) (by split at hvalue <;> omega)).symm
      rw [htwos, immHiBitsSB_twos_toNat, hcutSign, hcutUpper]
      omega
    · rw [immLoBitsSB_toNat, hcutLower, hcutBit]
      omega
  · rw [herror] at h
    cases h

/-! ### The operands of a word -/

/-- A word is its six fields. -/
theorem word_eq_six (w : Word) :
    w = (w.extractLsb' 25 7 ++ w.extractLsb' 20 5 ++ w.extractLsb' 15 5 ++ w.extractLsb' 12 3 ++
      w.extractLsb' 7 5 ++ w.extractLsb' 0 7 : BitVec (7 + 5 + 5 + 3 + 5 + 7)) := by
  apply BitVec.eq_of_toNat_eq
  rw [toNat_six]
  simp only [BitVec.extractLsb'_toNat, Nat.shiftRight_eq_div_pow]
  have hlt := w.isLt
  omega

/-- A word is its five fields. -/
theorem word_eq_five (w : Word) :
    w = (w.extractLsb' 20 12 ++ w.extractLsb' 15 5 ++ w.extractLsb' 12 3 ++ w.extractLsb' 7 5 ++
      w.extractLsb' 0 7 : BitVec (12 + 5 + 3 + 5 + 7)) := by
  apply BitVec.eq_of_toNat_eq
  rw [toNat_five]
  simp only [BitVec.extractLsb'_toNat, Nat.shiftRight_eq_div_pow]
  have hlt := w.isLt
  omega

/-- The operands that the bit layout keeps whole in the fields of a row. -/
def keptWhole (mode : ImmSplitMode) (layout : Layout) (z : Port) : Prop :=
  match layout with
  | .R _ => True
  | .I   => True
  | .S   => mode = .compat → 0 ≤ z.toInt ∨ z.toInt = -2048
  | .SB  => z.toInt % 2 = 0 ∧ (mode = .compat → 0 ≤ z.toInt)

theorem keptWhole_of_recoverable {mode : ImmSplitMode} {i : Instr} (h : recoverable mode i) :
    keptWhole mode (descriptorTable.row i.mnemonic).layout i.operands.2.2 := by
  cases i <;> exact h

/-- The operands of a row's word, read back where the fields keep them whole. -/
theorem decodeOperands_encodeFields {mode : ImmSplitMode} {d : Descriptor} {x y z : Port}
    (hfit : valuesFit .twos d.layout (sval x, sval y, sval z))
    (hwhole : keptWhole mode d.layout z) :
    decodeOperands mode d (encodeFields mode d x y z) = .ok (x, y, z) := by
  cases hlayout : d.layout with
  | R f7 =>
    rw [hlayout, valuesFit_formatR] at hfit
    obtain ⟨hx, hy, hz⟩ := hfit
    obtain ⟨-, h20, h15, -, h7, -⟩ := fields_six f7 (regBits z) (regBits y) d.funct3 (regBits x)
      d.opcode
    simp only [decodeOperands, encodeFields, hlayout, wordReg, h20, h15, h7, setWidth_regBits hx,
      setWidth_regBits hy, setWidth_regBits hz]
  | I =>
    rw [hlayout, valuesFit_formatI] at hfit
    obtain ⟨hx, hy, hz⟩ := hfit
    obtain ⟨h20, h15, -, h7, -⟩ := fields_five (z.extractLsb' 0 12) (regBits y) d.funct3 (regBits x)
      d.opcode
    simp only [decodeOperands, encodeFields, hlayout, wordReg, h20, h15, h7, setWidth_regBits hx,
      setWidth_regBits hy, signExtend_extract_of_range hz]
  | S =>
    rw [hlayout, valuesFit_formatS] at hfit
    rw [hlayout] at hwhole
    obtain ⟨hx, hy, hz⟩ := hfit
    obtain ⟨-, h20, h15, -, -, -⟩ := fields_six (immHiBitsS mode z) (regBits y) (regBits x) d.funct3
      (immLoBitsS z) d.opcode
    rw [decodeOperands, hlayout]
    simp only [decodeOffsetS_encodeFields hlayout hz hwhole, Except.map]
    simp only [encodeFields, hlayout, wordReg, h20, h15, setWidth_regBits hx, setWidth_regBits hy]
  | SB =>
    rw [hlayout, valuesFit_formatSB] at hfit
    rw [hlayout] at hwhole
    obtain ⟨hx, hy, hz, -⟩ := hfit
    obtain ⟨heven, hnonneg⟩ := hwhole
    obtain ⟨-, h20, h15, -, -, -⟩ := fields_six (immHiBitsSB mode z) (regBits y) (regBits x)
      d.funct3 (immLoBitsSB z) d.opcode
    rw [decodeOperands, hlayout]
    simp only [decodeOffsetSB_encodeFields hlayout hz heven hnonneg, Except.map]
    simp only [encodeFields, hlayout, wordReg, h20, h15, setWidth_regBits hx, setWidth_regBits hy]

/-- Settles O40: the word matches the instruction's row alone, and its fields keep the operands. -/
theorem decodeInvertsEncodeWord : Obligations.DecodeInvertsEncodeWord := by
  intro mode i hwf hrecoverable
  have hfit := (valuesFit_descriptorTable .twos i).mpr ⟨hwf, nofun⟩
  rw [encodeWord, decodeWord_of_matchesWord mode (matchesWord_encodeFields mode _ _ _ _),
    decodeOperands_encodeFields hfit (keptWhole_of_recoverable hrecoverable)]
  simp only [Except.map, Instr.of_mnemonic_operands]

/-- The operands read from a word fit the row that it matches, and the row's layout gives the word
back. -/
theorem encodeFields_of_decodeOperands {mode : ImmSplitMode} {d : Descriptor} {w : Word}
    {x y z : Port} (hmatches : d.matchesWord w = true)
    (h : decodeOperands mode d w = .ok (x, y, z)) :
    valuesFit mode d.layout (sval x, sval y, sval z) ∧ encodeFields mode d x y z = w := by
  obtain ⟨hopcode, hfunct3, hfunct7⟩ := (matchesWord_iff d w).mp hmatches
  rw [decodeOperands] at h
  cases hlayout : d.layout with
  | R f7 =>
    simp only [hlayout, Except.ok.injEq, Prod.mk.injEq] at h
    obtain ⟨rfl, rfl, rfl⟩ := h
    rw [valuesFit_formatR]
    refine ⟨⟨regInRange_setWidth _, regInRange_setWidth _, regInRange_setWidth _⟩, ?_⟩
    simp only [encodeFields, hlayout, wordReg, regBits_setWidth, ← hopcode, ← hfunct3,
      ← hfunct7 f7 hlayout]
    exact (word_eq_six w).symm
  | I =>
    simp only [hlayout, Except.ok.injEq, Prod.mk.injEq] at h
    obtain ⟨rfl, rfl, rfl⟩ := h
    rw [valuesFit_formatI]
    refine ⟨⟨regInRange_setWidth _, regInRange_setWidth _, imm12InRange_signExtend _⟩, ?_⟩
    simp only [encodeFields, hlayout, wordReg, regBits_setWidth, ← hopcode, ← hfunct3,
      extract_signExtend]
    exact (word_eq_five w).symm
  | S =>
    simp only [hlayout] at h
    cases hoffset : decodeOffsetS mode w with
    | error e => simp [hoffset, Except.map] at h
    | ok imm =>
      simp only [hoffset, Except.map, Except.ok.injEq, Prod.mk.injEq] at h
      obtain ⟨rfl, rfl, rfl⟩ := h
      obtain ⟨hrange, hhi, hlo⟩ := immBitsS_of_decodeOffsetS hoffset
      rw [valuesFit_formatS]
      refine ⟨⟨regInRange_setWidth _, regInRange_setWidth _, hrange⟩, ?_⟩
      simp only [encodeFields, hlayout, wordReg, regBits_setWidth, ← hopcode, ← hfunct3, hhi, hlo]
      exact (word_eq_six w).symm
  | SB =>
    simp only [hlayout] at h
    cases hoffset : decodeOffsetSB mode w with
    | error e => simp [hoffset, Except.map] at h
    | ok imm =>
      simp only [hoffset, Except.map, Except.ok.injEq, Prod.mk.injEq] at h
      obtain ⟨rfl, rfl, rfl⟩ := h
      obtain ⟨hrange, hhi, hlo, hnonneg⟩ := immBitsSB_of_decodeOffsetSB hoffset
      rw [valuesFit_formatSB]
      refine ⟨⟨regInRange_setWidth _, regInRange_setWidth _, hrange, ?_⟩, ?_⟩
      · rintro ⟨hcompat, hminimum⟩
        have hsign := hnonneg hcompat
        omega
      · simp only [encodeFields, hlayout, wordReg, regBits_setWidth, ← hopcode, ← hfunct3, hhi, hlo]
        exact (word_eq_six w).symm

/-- Settles O41: the operands read fit the row that the word matches, so the block lays out the word
it was read from. -/
theorem decodedWordIsRebuilt : Obligations.DecodedWordIsRebuilt := by
  intro b w i htable hdecode
  rw [htable] at hdecode
  obtain ⟨m, x, y, z, hmatches, hoperands, rfl⟩ := decodeWord_eq_ok hdecode
  obtain ⟨hfit, hword⟩ := encodeFields_of_decodeOperands hmatches hoperands
  have hwf := valuesFit_descriptorTable b.split (Instr.of m x y z)
  rw [Instr.mnemonic_of, Instr.operands_of] at hwf
  obtain ⟨hwellFormed, -⟩ := hwf.mp hfit
  rw [← htable] at hfit hword
  rw [encodePorts_of, encodeBlock_of_valuesFit fun _ => hfit]
  exact ⟨hwellFormed, rfl, hword⟩

/-! ### Every word built under `reject` is read -/

/-- The word decoder rejects no word of operands that fit its row. -/
theorem exists_decodeOperands_encodeFields {mode : ImmSplitMode} {d : Descriptor} {x y z : Port}
    (hfit : valuesFit mode d.layout (sval x, sval y, sval z)) :
    ∃ o, decodeOperands mode d (encodeFields mode d x y z) = .ok o := by
  rw [decodeOperands]
  cases hlayout : d.layout with
  | R f7 => exact ⟨_, rfl⟩
  | I => exact ⟨_, rfl⟩
  | S =>
    rw [hlayout, valuesFit_formatS, imm12InRange_iff_toInt] at hfit
    obtain ⟨-, -, h0, h1⟩ := hfit
    obtain ⟨-, hok⟩ | ⟨⟨rfl, hbig⟩, -⟩ := decodeOffsetS_cases mode (encodeFields mode d x y z)
    · exact ⟨_, by simp only [hok, Except.map]; rfl⟩
    · obtain ⟨hhi, hlo⟩ := encodeFields_formatS_imm hlayout .compat x y z
      rw [storeBits_toNat, hhi, hlo, ← storeField] at hbig
      by_cases hneg : z.toInt < 0
      · have hfield := storeField_compat_of_neg h0 hneg
        omega
      · have hfield := storeField_of_splitSource_eq (splitSource_of_nonneg (not_lt.mp hneg) .compat)
        omega
  | SB =>
    obtain ⟨-, hok⟩ | ⟨⟨rfl, hbig⟩, -⟩ := decodeOffsetSB_cases mode (encodeFields mode d x y z)
    · exact ⟨_, by simp only [hok, Except.map]; rfl⟩
    · have hmsb := msb_encodeFields_compat hlayout x y z
      rw [Bool.eq_false_iff, ne_eq, msb_iff_upperField] at hmsb
      rw [branchBits_toNat] at hbig
      have hlo := ((encodeFields .compat d x y z).extractLsb' 7 5).isLt
      omega

/-- Settles O42: under `reject` a word without error is the bit layout of operands that fit the
selected row, the only row it matches. -/
theorem everyBuiltWordDecodes : Obligations.EveryBuiltWordDecodes := by
  rintro b ⟨sel, x, y, z⟩ htable hreject herr
  obtain ⟨-, hrow⟩ := builtWordMatchesExactlyOneRow b ⟨sel, x, y, z⟩ htable
  obtain ⟨m, rfl, hmatches⟩ := hrow herr
  have hfit := valuesFit_of_err_eq_zero herr hreject
  obtain ⟨o, hoperands⟩ := exists_decodeOperands_encodeFields hfit
  rw [← word_of_err_eq_zero herr] at hoperands
  have hmatch := (hmatches m).mpr rfl
  rw [htable] at hmatch hoperands ⊢
  refine ⟨Instr.of m o.1 o.2.1 o.2.2, ?_, by rw [Instr.mnemonic_of]⟩
  rw [decodeWord_of_matchesWord b.split hmatch, hoperands]
  rfl

/-- Settles O6. -/
theorem tableWordsDecode : Obligations.TableWordsDecode := by
  refine ⟨?_, ?_, ?_, ?_, ?_, ?_, ?_, ?_⟩ <;> decide

end Sys2Proof.Machine
end

section
/-! PROOFS of the statements about the mnemonic lookup, the Operand Parser and the placing on the
ports (44_assembler_syntax.md R142 to R151). -/

namespace Sys2Proof.Machine

/-- Settles O55. -/
theorem mnemonicLookupIsExact : Obligations.MnemonicLookupIsExact := by
  refine ⟨fun t m => ⟨fun h => ?_, ?_⟩, rfl, rfl, rfl, rfl, rfl, rfl, rfl⟩
  · have hspells := List.find?_some (p := fun m => spelling m == t) h
    exact (beq_iff_eq.mp hspells).symm
  · rintro rfl
    exact lookupMnemonic_spelling m

/-! ### Tokens -/

theorem parseDigits_eq_some_iff {t : Text} {n : Nat} :
    parseDigits t = some n ↔ isDigits t ∧ decimalValue t = n := by
  rw [isDigits_iff, parseDigits]
  split <;> simp_all

theorem isSome_parseDigits (t : Text) : (parseDigits t).isSome = true ↔ isDigits t := by
  simp only [Option.isSome_iff_exists, parseDigits_eq_some_iff, exists_and_left, exists_eq',
    and_true]

/-- What parses exactly in a form fails exactly outside it. -/
theorem eq_none_iff_not {α : Type} {o : Option α} {p : Prop} (h : o.isSome = true ↔ p) :
    o = none ↔ ¬p := by
  rw [← h, Bool.not_eq_true, Option.isSome_eq_false_iff, Option.isNone_iff_eq_none]

/-- A register token parses exactly in its form (44_assembler_syntax.md R144). -/
theorem isSome_parseRegister (t : Text) : (parseRegister t).isSome = true ↔ isRegisterToken t := by
  cases t with
  | nil => simp [parseRegister, isRegisterToken]
  | cons c ds => simp [parseRegister, isRegisterToken, isSome_parseDigits]

/-- A sign is no digit. -/
theorem not_isDigits_sign_cons {c : Char} (hc : c = '-' ∨ c = '+') (t : Text) :
    ¬isDigits (c :: t) := by
  rintro ⟨-, hdigits⟩
  have hdigit := hdigits c List.mem_cons_self
  obtain rfl | rfl := hc <;> exact absurd hdigit (by decide)

/-- An immediate token without a sign is read as its digits (44_assembler_syntax.md R145). -/
theorem parseImmediate_of_isDigits {t : Text} (h : isDigits t) :
    parseImmediate t = (parseDigits t).map (fun n : Nat => (n : Int)) := by
  unfold parseImmediate
  split
  · exact absurd h (not_isDigits_sign_cons (.inl rfl) _)
  · exact absurd h (not_isDigits_sign_cons (.inr rfl) _)
  · rfl

/-- An immediate token parses exactly in its form (44_assembler_syntax.md R145). -/
theorem isSome_parseImmediate (t : Text) :
    (parseImmediate t).isSome = true ↔ isImmediateToken t := by
  unfold parseImmediate
  split
  case h_1 t =>
    rw [Option.isSome_map, isSome_parseDigits, isImmediateToken]
    simp [not_isDigits_sign_cons (.inl rfl) t]
  case h_2 t =>
    rw [Option.isSome_map, isSome_parseDigits, isImmediateToken]
    simp [not_isDigits_sign_cons (.inr rfl) t]
  case h_3 t hminus hplus =>
    rw [Option.isSome_map, isSome_parseDigits, isImmediateToken]
    refine ⟨.inl, Or.rec id ?_⟩
    rintro ⟨ds, -, rfl | rfl⟩
    · exact absurd rfl (hminus ds)
    · exact absurd rfl (hplus ds)

/-- An immediate token holds no parenthesis, and nothing else but signs and digits. -/
theorem notMem_of_isImmediateToken {t : Text} (h : isImmediateToken t) {c : Char}
    (hdigit : ¬('0' ≤ c ∧ c ≤ '9')) (hminus : c ≠ '-') (hplus : c ≠ '+') : c ∉ t := by
  obtain ⟨-, hdigits⟩ | ⟨ds, ⟨-, hdigits⟩, rfl | rfl⟩ := h
  · exact fun hmem => hdigit (hdigits c hmem)
  · simp only [List.mem_cons, hminus, false_or]
    exact fun hmem => hdigit (hdigits c hmem)
  · simp only [List.mem_cons, hplus, false_or]
    exact fun hmem => hdigit (hdigits c hmem)

/-! ### Splitting -/

/-- Two tokens are all that a text cut once can give. -/
theorem eq_of_splitOnChar_pair {d : Char} {t u a b : Text}
    (h : splitOnChar d (t ++ d :: u) = [a, b]) : a = t ∧ b = u := by
  have hcount := splitOnChar_length d (t ++ d :: u)
  simp only [h, List.length_cons, List.length_nil, List.count_append, List.count_cons_self]
    at hcount
  have ht : d ∉ t := List.count_eq_zero.mp (by omega)
  have hu : d ∉ u := List.count_eq_zero.mp (by omega)
  have hsplit : splitOnChar d (t ++ d :: u) = [t, u] := splitOnChar_eq_pair_iff.mpr ⟨rfl, ht, hu⟩
  simpa using h.symm.trans hsplit

/-- Three tokens are all that a text cut twice can give. -/
theorem eq_of_splitOnChar_triple {d : Char} {t u v a b c : Text}
    (h : splitOnChar d (t ++ d :: (u ++ d :: v)) = [a, b, c]) : a = t ∧ b = u ∧ c = v := by
  have hcount := splitOnChar_length d (t ++ d :: (u ++ d :: v))
  simp only [h, List.length_cons, List.length_nil, List.count_append, List.count_cons_self]
    at hcount
  have ht : d ∉ t := List.count_eq_zero.mp (by omega)
  have hu : d ∉ u := List.count_eq_zero.mp (by omega)
  have hv : d ∉ v := List.count_eq_zero.mp (by omega)
  have hsplit : splitOnChar d (t ++ d :: (u ++ d :: v)) = [t, u, v] :=
    splitOnChar_eq_triple_iff.mpr ⟨rfl, ht, hu, hv⟩
  simpa using h.symm.trans hsplit

/-! ### What the parser reads -/

/-- The values of an offset token, from its two parts (44_assembler_syntax.md R148). -/
theorem parseOffset_eq_some_iff {t : Text} {imm reg : Int} :
    parseOffset t = some (imm, reg) ↔ ∃ i r, splitOnChar '(' t = [i, r ++ [')']] ∧ ')' ∉ r ∧
      parseImmediate i = some imm ∧ parseRegister r = some reg := by
  unfold parseOffset
  constructor
  · split
    · rename_i i rest hopen
      split
      · rename_i r hclose
        intro h
        obtain ⟨rfl, hr, -⟩ := splitOnChar_eq_pair_iff.mp hclose
        refine ⟨i, r, hopen, hr, ?_⟩
        simpa [Option.bind_eq_some_iff] using h
      · nofun
    · nofun
  · rintro ⟨i, r, hopen, hr, himm, hreg⟩
    have hclose : splitOnChar ')' (r ++ [')']) = [r, []] :=
      splitOnChar_eq_pair_iff.mpr ⟨rfl, hr, by simp⟩
    simp [hopen, hclose, himm, hreg]

theorem parseOperands_registerList_eq_some_iff {ops : Text} {x y z : Int} :
    parseOperands .registerList ops = some (x, y, z) ↔ ∃ t u v, splitOnChar ',' ops = [t, u, v] ∧
      parseRegister t = some x ∧ parseRegister u = some y ∧ parseRegister v = some z := by
  constructor
  · intro h
    unfold parseOperands at h
    split at h
    all_goals simp_all [Option.bind_eq_some_iff]
  · rintro ⟨t, u, v, hsplit, hx, hy, hz⟩
    simp [parseOperands, hsplit, hx, hy, hz]

theorem parseOperands_registerImmediate_eq_some_iff {ops : Text} {x y z : Int} :
    parseOperands .registerImmediate ops = some (x, y, z) ↔
      ∃ t u v, splitOnChar ',' ops = [t, u, v] ∧
        parseRegister t = some x ∧ parseRegister u = some y ∧ parseImmediate v = some z := by
  constructor
  · intro h
    unfold parseOperands at h
    split at h
    all_goals simp_all [Option.bind_eq_some_iff]
  · rintro ⟨t, u, v, hsplit, hx, hy, hz⟩
    simp [parseOperands, hsplit, hx, hy, hz]

theorem parseOperands_registerOffset_eq_some_iff {ops : Text} {x y z : Int} :
    parseOperands .registerOffset ops = some (x, y, z) ↔ ∃ t u, splitOnChar ',' ops = [t, u] ∧
      parseRegister t = some x ∧ parseOffset u = some (y, z) := by
  constructor
  · intro h
    unfold parseOperands at h
    split at h
    all_goals simp_all [Option.bind_eq_some_iff]
  · rintro ⟨t, u, hsplit, hx, hyz⟩
    simp [parseOperands, hsplit, hx, hyz]

/-! ### The forms the parser reads -/

/-- An offset token parses exactly in its form (44_assembler_syntax.md R148). -/
theorem isSome_parseOffset (t : Text) : (parseOffset t).isSome = true ↔ isOffsetToken t := by
  simp only [Option.isSome_iff_exists, Prod.exists, parseOffset_eq_some_iff,
    splitOnChar_eq_pair_iff]
  constructor
  · rintro ⟨imm, reg, i, r, ⟨rfl, -, hopen⟩, hclose, himm, hreg⟩
    refine ⟨i, r, rfl, fun hmem => hopen (List.mem_append_left _ hmem), hclose, ?_, ?_⟩
    · exact (isSome_parseImmediate i).mp (Option.isSome_of_eq_some himm)
    · exact (isSome_parseRegister r).mp (Option.isSome_of_eq_some hreg)
  · rintro ⟨i, r, rfl, hopen, hclose, himm, hreg⟩
    obtain ⟨imm, himmValue⟩ := Option.isSome_iff_exists.mp ((isSome_parseImmediate i).mpr himm)
    obtain ⟨reg, hregValue⟩ := Option.isSome_iff_exists.mp ((isSome_parseRegister r).mpr hreg)
    have hi : '(' ∉ i := notMem_of_isImmediateToken himm (by decide) (by decide) (by decide)
    exact ⟨imm, reg, i, r, ⟨rfl, hi, by simp [hopen]⟩, hclose, himmValue, hregValue⟩

/-- An operand text parses exactly in the form of its shape (44_assembler_syntax.md R146 to
R148). -/
theorem isSome_parseOperands (shape : Shape) (ops : Text) :
    (parseOperands shape ops).isSome = true ↔ isOperandText shape ops := by
  rw [Option.isSome_iff_exists]
  cases shape with
  | registerList =>
    simp only [Prod.exists, parseOperands_registerList_eq_some_iff, splitOnChar_eq_triple_iff,
      isOperandText, ← isSome_parseRegister, Option.isSome_iff_exists, List.mem_append]
    grind
  | registerImmediate =>
    simp only [Prod.exists, parseOperands_registerImmediate_eq_some_iff, splitOnChar_eq_triple_iff,
      isOperandText, ← isSome_parseRegister, ← isSome_parseImmediate, Option.isSome_iff_exists,
      List.mem_append]
    grind
  | registerOffset =>
    simp only [Prod.exists, parseOperands_registerOffset_eq_some_iff, splitOnChar_eq_pair_iff,
      isOperandText, ← isSome_parseRegister, ← isSome_parseOffset, Option.isSome_iff_exists,
      List.mem_append]
    grind

/-! ### Each cause of a malformed operand text -/

theorem isRegisterToken_of_eq_some {t : Text} {x : Int} (h : parseRegister t = some x) :
    isRegisterToken t := (isSome_parseRegister t).mp (Option.isSome_of_eq_some h)

theorem isImmediateToken_of_eq_some {t : Text} {x : Int} (h : parseImmediate t = some x) :
    isImmediateToken t := (isSome_parseImmediate t).mp (Option.isSome_of_eq_some h)

theorem parseOperands_eq_none_of_length_ne_three {ops : Text}
    (h : (splitOnChar ',' ops).length ≠ 3) :
    parseOperands .registerList ops = none ∧ parseOperands .registerImmediate ops = none := by
  constructor <;> rw [Option.eq_none_iff_forall_ne_some] <;> rintro ⟨x, y, z⟩ hsome
  · obtain ⟨t, u, v, hsplit, -⟩ := parseOperands_registerList_eq_some_iff.mp hsome
    exact h (by rw [hsplit]; rfl)
  · obtain ⟨t, u, v, hsplit, -⟩ := parseOperands_registerImmediate_eq_some_iff.mp hsome
    exact h (by rw [hsplit]; rfl)

theorem parseOperands_eq_none_of_length_ne_two {ops : Text}
    (h : (splitOnChar ',' ops).length ≠ 2) : parseOperands .registerOffset ops = none := by
  rw [Option.eq_none_iff_forall_ne_some]
  rintro ⟨x, y, z⟩ hsome
  obtain ⟨t, u, hsplit, -⟩ := parseOperands_registerOffset_eq_some_iff.mp hsome
  exact h (by rw [hsplit]; rfl)

theorem registerList_eq_none_of_token {t u v : Text}
    (h : ¬isRegisterToken t ∨ ¬isRegisterToken u ∨ ¬isRegisterToken v) :
    parseOperands .registerList (t ++ ',' :: (u ++ ',' :: v)) = none := by
  rw [Option.eq_none_iff_forall_ne_some]
  rintro ⟨x, y, z⟩ hsome
  obtain ⟨a, b, c, hsplit, hx, hy, hz⟩ := parseOperands_registerList_eq_some_iff.mp hsome
  obtain ⟨rfl, rfl, rfl⟩ := eq_of_splitOnChar_triple hsplit
  obtain ht | hu | hv := h
  · exact ht (isRegisterToken_of_eq_some hx)
  · exact hu (isRegisterToken_of_eq_some hy)
  · exact hv (isRegisterToken_of_eq_some hz)

theorem registerImmediate_eq_none_of_token {t u v : Text}
    (h : ¬isRegisterToken t ∨ ¬isRegisterToken u ∨ ¬isImmediateToken v) :
    parseOperands .registerImmediate (t ++ ',' :: (u ++ ',' :: v)) = none := by
  rw [Option.eq_none_iff_forall_ne_some]
  rintro ⟨x, y, z⟩ hsome
  obtain ⟨a, b, c, hsplit, hx, hy, hz⟩ := parseOperands_registerImmediate_eq_some_iff.mp hsome
  obtain ⟨rfl, rfl, rfl⟩ := eq_of_splitOnChar_triple hsplit
  obtain ht | hu | hv := h
  · exact ht (isRegisterToken_of_eq_some hx)
  · exact hu (isRegisterToken_of_eq_some hy)
  · exact hv (isImmediateToken_of_eq_some hz)

theorem registerOffset_eq_none_of_token {t i r : Text}
    (h : ¬isRegisterToken t ∨ ¬isImmediateToken i ∨ ¬isRegisterToken r) :
    parseOperands .registerOffset (t ++ ',' :: (i ++ '(' :: (r ++ [')']))) = none := by
  rw [Option.eq_none_iff_forall_ne_some]
  rintro ⟨x, y, z⟩ hsome
  obtain ⟨a, b, hsplit, hx, hoffset⟩ := parseOperands_registerOffset_eq_some_iff.mp hsome
  obtain ⟨rfl, rfl⟩ := eq_of_splitOnChar_pair hsplit
  obtain ⟨c, d, hopen, -, hy, hz⟩ := parseOffset_eq_some_iff.mp hoffset
  obtain ⟨rfl, hclose⟩ := eq_of_splitOnChar_pair hopen
  obtain rfl := List.append_cancel_right hclose
  obtain ht | hi | hr := h
  · exact ht (isRegisterToken_of_eq_some hx)
  · exact hi (isImmediateToken_of_eq_some hy)
  · exact hr (isRegisterToken_of_eq_some hz)

/-- An offset token has one parenthesis of each kind, and the closing one last. -/
theorem parentheses_of_isOffsetToken {u : Text} (h : isOffsetToken u) :
    u.count '(' = 1 ∧ u.count ')' = 1 ∧ u.getLast? = some ')' := by
  obtain ⟨i, r, rfl, hopen, hclose, himm, -⟩ := h
  have hiOpen : '(' ∉ i := notMem_of_isImmediateToken himm (by decide) (by decide) (by decide)
  have hiClose : ')' ∉ i := notMem_of_isImmediateToken himm (by decide) (by decide) (by decide)
  have hlast : i ++ '(' :: (r ++ [')']) = (i ++ '(' :: r) ++ [')'] := by simp
  refine ⟨?_, ?_, by rw [hlast, List.getLast?_concat]⟩
  · simp [List.count_eq_zero.mpr hiOpen, List.count_eq_zero.mpr hopen]
  · simp [List.count_eq_zero.mpr hiClose, List.count_eq_zero.mpr hclose]

theorem registerOffset_eq_none_of_parentheses {t u : Text}
    (h : u.count '(' ≠ 1 ∨ u.count ')' ≠ 1 ∨ u.getLast? ≠ some ')') :
    parseOperands .registerOffset (t ++ ',' :: u) = none := by
  rw [Option.eq_none_iff_forall_ne_some]
  rintro ⟨x, y, z⟩ hsome
  obtain ⟨a, b, hsplit, -, hoffset⟩ := parseOperands_registerOffset_eq_some_iff.mp hsome
  obtain ⟨rfl, rfl⟩ := eq_of_splitOnChar_pair hsplit
  obtain ⟨hopen, hclose, hlast⟩ :=
    parentheses_of_isOffsetToken ((isSome_parseOffset b).mp (Option.isSome_of_eq_some hoffset))
  obtain hne | hne | hne := h
  · exact hne hopen
  · exact hne hclose
  · exact hne hlast

/-- Settles O56: each parser succeeds exactly on its form, and a line whose operands do not parse is
MalformedOperand. -/
theorem wrongFormIsMalformed : Obligations.WrongFormIsMalformed := by
  have hnone : ∀ shape ops, parseOperands shape ops = none ↔ ¬isOperandText shape ops :=
    fun shape ops => eq_none_iff_not (isSome_parseOperands shape ops)
  have hregister : ∀ t, parseRegister t = none ↔ ¬isRegisterToken t :=
    fun t => eq_none_iff_not (isSome_parseRegister t)
  have himmediate : ∀ t, parseImmediate t = none ↔ ¬isImmediateToken t :=
    fun t => eq_none_iff_not (isSome_parseImmediate t)
  refine ⟨hnone, ?_, fun _ => parseOperands_eq_none_of_length_ne_three,
    fun _ => parseOperands_eq_none_of_length_ne_two, fun _ _ _ => registerList_eq_none_of_token,
    fun _ _ _ => registerImmediate_eq_none_of_token, fun _ _ _ => registerOffset_eq_none_of_token,
    fun _ _ => registerOffset_eq_none_of_parentheses, hregister, himmediate,
    fun t => eq_none_iff_not (isSome_parseOffset t), ?_, ?_⟩
  · intro b line ops m n htokens hform
    obtain ⟨hpriority, -⟩ := errorPriority
    obtain ⟨-, hspelling⟩ := hpriority b line (spelling m) ops n htokens
    obtain ⟨hmalformed, -⟩ := hspelling m rfl
    exact hmalformed ((hnone _ ops).mpr hform)
  · simp only [← hregister]
    decide
  · simp only [← himmediate]
    decide

/-! ### From parsed values to ports -/

/-- Every value is within the 32 bits of a port, where the policy asks for it
(44_assembler_syntax.md R151). -/
def fitPorts (policy : OverflowPolicy) (values : List Int) : Prop :=
  policy = .reject → ∀ v ∈ values, -2147483648 ≤ v ∧ v ≤ 2147483647

theorem placeOperands_of_fitPorts {policy : OverflowPolicy} (m : Mnemonic) {x y z : Int}
    (h : fitPorts policy [x, y, z]) :
    placeOperands policy m (x, y, z) =
      .request (Instr.of m (BitVec.ofInt 32 x) (BitVec.ofInt 32 y) (BitVec.ofInt 32 z)) := by
  have hplace : ∀ v ∈ [x, y, z], placePort policy v = some (BitVec.ofInt 32 v) :=
    fun v hv => placePort_of_bounds fun hreject => h hreject v hv
  simp only [placeOperands, hplace x (by simp), hplace y (by simp), hplace z (by simp)]

theorem placeOperands_of_not_fitPorts {policy : OverflowPolicy} (m : Mnemonic) {x y z : Int}
    (h : ¬fitPorts policy [x, y, z]) : placeOperands policy m (x, y, z) = .overflow m := by
  obtain ⟨a, b, c, hx, hy, hz, -⟩ | ⟨-, hoverflow⟩ := placeOperands_cases policy m (x, y, z)
  · refine absurd (fun hreject v hv => ?_) h
    by_contra hout
    have hnone : placePort policy v = none := placePort_eq_none_iff.mpr ⟨hreject, hout⟩
    obtain rfl | rfl | rfl : v = x ∨ v = y ∨ v = z := by simpa using hv
    · simp [hnone] at hx
    · simp [hnone] at hy
    · simp [hnone] at hz
  · exact hoverflow

/-- What the operand part of a line gives once it has parsed: the request of the values in tuple
order, or an overflow. -/
theorem translateOperands_of_parseOperands {b : Build} {m : Mnemonic} {ops : Text}
    {v : Int × Int × Int} {x y z : Int} {values : List Int}
    (hparse : parseOperands (b.table.row m).shape ops = some v)
    (horder : tupleOrder (b.table.row m).layout (b.table.row m).shape v = (x, y, z))
    (hvalues : values.Perm [x, y, z]) :
    (fitPorts b.overflow values → translateOperands b m ops =
      .request (Instr.of m (BitVec.ofInt 32 x) (BitVec.ofInt 32 y) (BitVec.ofInt 32 z))) ∧
    (¬fitPorts b.overflow values → translateOperands b m ops = .overflow m) := by
  have hfit : fitPorts b.overflow values ↔ fitPorts b.overflow [x, y, z] := by
    simp only [fitPorts, hvalues.mem_iff]
  simp only [hfit, translateOperands_eq, hparse, horder]
  exact ⟨placeOperands_of_fitPorts m, placeOperands_of_not_fitPorts m⟩

/-- Settles O57: the tuple order keeps the text order but for `I(R)`. -/
theorem parsedValuesReachTheirPorts : Obligations.ParsedValuesReachTheirPorts := by
  rintro ⟨policy, split, table⟩ ops x y z (rfl : table = descriptorTable)
  refine ⟨fun hparse => ?_, fun hparse => ?_, fun hparse => ?_⟩
  · have hrow (m : Mnemonic) (hm : m ∈ [Mnemonic.sub, .or, .srl]) :=
      translateOperands_of_parseOperands (b := ⟨policy, split, descriptorTable⟩) (m := m)
        (ops := ops) (v := (x, y, z)) (values := [x, y, z])
        (by fin_cases hm <;> exact hparse) (by fin_cases hm <;> rfl) (.refl _)
    refine ⟨fun hfit => ⟨?_, ?_, ?_⟩, fun hout m hm => (hrow m hm).2 hout⟩
    · exact (hrow .sub (by decide)).1 hfit
    · exact (hrow .or (by decide)).1 hfit
    · exact (hrow .srl (by decide)).1 hfit
  · have hrow (m : Mnemonic) (hm : m ∈ [Mnemonic.andi, .beq]) :=
      translateOperands_of_parseOperands (b := ⟨policy, split, descriptorTable⟩) (m := m)
        (ops := ops) (v := (x, y, z)) (values := [x, y, z])
        (by fin_cases hm <;> exact hparse) (by fin_cases hm <;> rfl) (.refl _)
    refine ⟨fun hfit => ⟨?_, ?_⟩, fun hout m hm => (hrow m hm).2 hout⟩
    · exact (hrow .andi (by decide)).1 hfit
    · exact (hrow .beq (by decide)).1 hfit
  · obtain ⟨hlh, hlhOut⟩ := translateOperands_of_parseOperands
      (b := ⟨policy, split, descriptorTable⟩) (m := .lh) (values := [x, y, z]) hparse rfl
      ((List.Perm.swap z y []).cons x)
    obtain ⟨hsh, hshOut⟩ := translateOperands_of_parseOperands
      (b := ⟨policy, split, descriptorTable⟩) (m := .sh) (values := [x, y, z]) hparse rfl
      (List.perm_append_comm (l₁ := [x, y]) (l₂ := [z]))
    refine ⟨fun hfit => ⟨hlh hfit, hsh hfit⟩, fun hout m hm => ?_⟩
    fin_cases hm
    · exact hlhOut hout
    · exact hshOut hout

end Sys2Proof.Machine
end

section
/-! PROOFS of the statements about the text the host writes and the source line of an instruction
(44_assembler_syntax.md R141 to R152, 20_memory.md R41). -/

namespace Sys2Proof.Machine

/-! ### The tokens of a source line -/

theorem isDecimalDigit_ofNat {k : Nat} (h : k < 10) :
    isDecimalDigit (Char.ofNat (48 + k)) = true := by
  interval_cases k <;> decide

theorem decimalDigits_all (fuel n : Nat) : (decimalDigits fuel n).all isDecimalDigit = true := by
  induction fuel generalizing n with
  | zero => rfl
  | succ fuel ih =>
    have hlast : isDecimalDigit (Char.ofNat (48 + n % 10)) = true :=
      isDecimalDigit_ofNat (Nat.mod_lt _ (by decide))
    rw [decimalDigits, List.all_append]
    split <;> simp [hlast, ih]

theorem decimalDigits_ne_nil {fuel : Nat} (hfuel : fuel ≠ 0) (n : Nat) :
    decimalDigits fuel n ≠ [] := by
  obtain ⟨k, rfl⟩ := Nat.exists_eq_succ_of_ne_zero hfuel
  simp [decimalDigits]

theorem isDigits_decimalDigits (n : Nat) : isDigits (decimalDigits 10 n) :=
  (isDigits_iff _).mpr ⟨decimalDigits_ne_nil (by decide) n, decimalDigits_all 10 n⟩

/-- Ten digits write every number of a port, and are read back as it. -/
theorem parseDigits_decimalDigits {n : Nat} (h : n < 10 ^ 10) :
    parseDigits (decimalDigits 10 n) = some n :=
  parseDigits_eq_some_iff.mpr ⟨isDigits_decimalDigits n, decimalValue_decimalDigits h⟩

/-- A register token is read back as its index (44_assembler_syntax.md R144). -/
theorem parseRegister_registerText {r : Port} (h : 0 ≤ r.toInt) :
    parseRegister (registerText r) = some (sval r) := by
  obtain ⟨-, hmax⟩ := sval_bounds r
  rw [← sval_eq_toInt] at h
  rw [registerText, parseRegister, parseDigits_decimalDigits (by omega), Option.map_some,
    Int.toNat_of_nonneg h]

/-- An immediate token is read back as its value (44_assembler_syntax.md R145). -/
theorem parseImmediate_immediateText (imm : Port) :
    parseImmediate (immediateText imm) = some (sval imm) := by
  obtain ⟨hmin, hmax⟩ := sval_bounds imm
  rw [immediateText]
  split
  case isTrue hneg =>
    rw [parseImmediate, parseDigits_decimalDigits (by omega), Option.map_some,
      Int.toNat_of_nonneg (by omega), neg_neg]
  case isFalse hnonneg =>
    rw [parseImmediate_of_isDigits (isDigits_decimalDigits _), parseDigits_decimalDigits (by omega),
      Option.map_some, Int.toNat_of_nonneg (by omega)]

/-! ### The characters of a source line -/

/-- The characters that the tokens of a source line are written with. -/
def isTokenChar (c : Char) : Bool := c == 'x' || c == '-' || isDecimalDigit c

theorem isTokenChar_of_mem_registerText {r : Port} {c : Char} (h : c ∈ registerText r) :
    isTokenChar c = true := by
  obtain rfl | hdigit := List.mem_cons.mp h
  · rfl
  · simp [isTokenChar, List.all_eq_true.mp (decimalDigits_all _ _) c hdigit]

theorem isTokenChar_of_mem_immediateText {imm : Port} {c : Char} (h : c ∈ immediateText imm) :
    isTokenChar c = true := by
  have hdigits (n : Nat) (hmem : c ∈ decimalDigits 10 n) : isTokenChar c = true := by
    simp [isTokenChar, List.all_eq_true.mp (decimalDigits_all _ _) c hmem]
  rw [immediateText] at h
  split at h
  · obtain rfl | hmem := List.mem_cons.mp h
    · rfl
    · exact hdigits _ hmem
  · exact hdigits _ h

theorem notMem_registerText (r : Port) {c : Char} (h : isTokenChar c = false) :
    c ∉ registerText r := by
  intro hmem
  simp [isTokenChar_of_mem_registerText hmem] at h

theorem notMem_immediateText (imm : Port) {c : Char} (h : isTokenChar c = false) :
    c ∉ immediateText imm := by
  intro hmem
  simp [isTokenChar_of_mem_immediateText hmem] at h

theorem isSpace_of_isTokenChar {c : Char} (h : isTokenChar c = true) : isSpace c = false := by
  rw [Bool.eq_false_iff, ne_eq, isSpace_iff_mem]
  intro hspace
  simp only [List.mem_cons, List.not_mem_nil, or_false] at hspace
  obtain rfl | rfl | rfl | rfl | rfl | rfl := hspace <;> exact absurd h (by decide)

/-! ### The operands of a source line -/

theorem parseOperands_registerTexts {a b c : Port} (ha : 0 ≤ a.toInt) (hb : 0 ≤ b.toInt)
    (hc : 0 ≤ c.toInt) :
    parseOperands .registerList
        (registerText a ++ [','] ++ registerText b ++ [','] ++ registerText c) =
      some (sval a, sval b, sval c) := by
  have hcomma (r : Port) : ',' ∉ registerText r := notMem_registerText r (by decide)
  rw [parseOperands_registerList_eq_some_iff]
  refine ⟨registerText a, registerText b, registerText c, ?_, parseRegister_registerText ha,
    parseRegister_registerText hb, parseRegister_registerText hc⟩
  exact splitOnChar_eq_triple_iff.mpr ⟨by simp, hcomma a, hcomma b, hcomma c⟩

theorem parseOperands_immediateText {a b : Port} (ha : 0 ≤ a.toInt) (hb : 0 ≤ b.toInt)
    (imm : Port) :
    parseOperands .registerImmediate
        (registerText a ++ [','] ++ registerText b ++ [','] ++ immediateText imm) =
      some (sval a, sval b, sval imm) := by
  have hcomma (r : Port) : ',' ∉ registerText r := notMem_registerText r (by decide)
  rw [parseOperands_registerImmediate_eq_some_iff]
  refine ⟨registerText a, registerText b, immediateText imm, ?_, parseRegister_registerText ha,
    parseRegister_registerText hb, parseImmediate_immediateText imm⟩
  exact splitOnChar_eq_triple_iff.mpr
    ⟨by simp, hcomma a, hcomma b, notMem_immediateText imm (by decide)⟩

theorem parseOffset_offsetText {r : Port} (hr : 0 ≤ r.toInt) (imm : Port) :
    parseOffset (immediateText imm ++ '(' :: (registerText r ++ [')'])) =
      some (sval imm, sval r) := by
  have hopen : '(' ∉ registerText r := notMem_registerText r (by decide)
  rw [parseOffset_eq_some_iff]
  refine ⟨immediateText imm, registerText r, ?_, notMem_registerText r (by decide),
    parseImmediate_immediateText imm, parseRegister_registerText hr⟩
  exact splitOnChar_eq_pair_iff.mpr
    ⟨rfl, notMem_immediateText imm (by decide), by simp [hopen]⟩

theorem parseOperands_offsetText {a r : Port} (ha : 0 ≤ a.toInt) (hr : 0 ≤ r.toInt) (imm : Port) :
    parseOperands .registerOffset
        (registerText a ++ [','] ++ immediateText imm ++ ['('] ++ registerText r ++ [')']) =
      some (sval a, sval imm, sval r) := by
  have hcomma (r : Port) : ',' ∉ registerText r := notMem_registerText r (by decide)
  have hcommaImm : ',' ∉ immediateText imm := notMem_immediateText imm (by decide)
  rw [parseOperands_registerOffset_eq_some_iff]
  refine ⟨registerText a, immediateText imm ++ '(' :: (registerText r ++ [')']), ?_,
    parseRegister_registerText ha, parseOffset_offsetText hr imm⟩
  exact splitOnChar_eq_pair_iff.mpr ⟨by simp, hcomma a, by simp [hcomma r, hcommaImm]⟩

/-- The operand text of an instruction is read back, and the tuple order puts its values in their
places. -/
theorem parseOperands_operandText {i : Instr} (h : writable i) :
    ∃ v, parseOperands (descriptorTable.row i.mnemonic).shape (operandText i) = some v ∧
      tupleOrder (descriptorTable.row i.mnemonic).layout (descriptorTable.row i.mnemonic).shape v =
        (sval i.operands.1, sval i.operands.2.1, sval i.operands.2.2) := by
  cases i with
  | sub a b c | or a b c | srl a b c =>
    obtain ⟨ha, hb, hc⟩ := h
    exact ⟨_, parseOperands_registerTexts ha hb hc, rfl⟩
  | andi a b c | beq a b c =>
    obtain ⟨ha, hb⟩ := h
    exact ⟨_, parseOperands_immediateText ha hb c, rfl⟩
  | lh a b c =>
    obtain ⟨ha, hb⟩ := h
    exact ⟨_, parseOperands_offsetText ha hb c, rfl⟩
  | sh a b c =>
    obtain ⟨ha, hb⟩ := h
    exact ⟨_, parseOperands_offsetText hb ha c, rfl⟩

/-! ### The source line -/

theorem isSpace_of_mem_operandText (i : Instr) : ∀ c ∈ operandText i, isSpace c = false := by
  have hregister (r : Port) : ∀ c ∈ registerText r, isSpace c = false :=
    fun c hmem => isSpace_of_isTokenChar (isTokenChar_of_mem_registerText hmem)
  have himmediate (imm : Port) : ∀ c ∈ immediateText imm, isSpace c = false :=
    fun c hmem => isSpace_of_isTokenChar (isTokenChar_of_mem_immediateText hmem)
  cases i with
  | sub a b c | or a b c | srl a b c =>
    simp only [operandText, List.forall_mem_append, List.forall_mem_singleton]
    exact ⟨⟨⟨⟨hregister a, rfl⟩, hregister b⟩, rfl⟩, hregister c⟩
  | andi a b c | beq a b c =>
    simp only [operandText, List.forall_mem_append, List.forall_mem_singleton]
    exact ⟨⟨⟨⟨hregister a, rfl⟩, hregister b⟩, rfl⟩, himmediate c⟩
  | lh a b c =>
    simp only [operandText, List.forall_mem_append, List.forall_mem_singleton]
    exact ⟨⟨⟨⟨⟨hregister a, rfl⟩, himmediate c⟩, rfl⟩, hregister b⟩, rfl⟩
  | sh a b c =>
    simp only [operandText, List.forall_mem_append, List.forall_mem_singleton]
    exact ⟨⟨⟨⟨⟨hregister b, rfl⟩, himmediate c⟩, rfl⟩, hregister a⟩, rfl⟩

theorem spelling_ne_nil (m : Mnemonic) : spelling m ≠ [] := by cases m <;> decide

theorem spelling_any_isSpace (m : Mnemonic) : (spelling m).any isSpace = false := by
  cases m <;> decide

/-- A source line is its mnemonic and its operand text (44_assembler_syntax.md R141). -/
theorem tokenize_sourceLine (i : Instr) :
    tokenize (sourceLine i) = some (spelling i.mnemonic, operandText i) := by
  obtain ⟨-, -, -, htokens⟩ := tokenizerFollowsWhitespaceRule
  obtain ⟨-, hline⟩ := htokens (spelling i.mnemonic) (operandText i) ' ' (spelling_ne_nil _)
    (spelling_any_isSpace _) (by decide)
  have hfilter : (operandText i).filter (fun c => !isSpace c) = operandText i :=
    List.filter_eq_self.mpr fun c hmem => by simp [isSpace_of_mem_operandText i c hmem]
  rw [sourceLine, List.append_assoc, List.singleton_append, hline, hfilter]

/-- A port's own value always fits the port. -/
theorem fitPorts_sval (policy : OverflowPolicy) (a b c : Port) :
    fitPorts policy [sval a, sval b, sval c] := by
  intro _ v hv
  simp only [List.mem_cons, List.not_mem_nil, or_false] at hv
  obtain rfl | rfl | rfl := hv <;> exact sval_bounds _

theorem ofInt_sval (p : Port) : BitVec.ofInt 32 (sval p) = p := by
  rw [sval_eq_toInt, BitVec.ofInt_toInt]

/-- Settles O53: the tokens of the source line are the mnemonic and the operand text, whose values
are those of the ports. -/
theorem sourceLineRoundTrip : Obligations.SourceLineRoundTrip := by
  intro b i htable hwritable
  obtain ⟨v, hparse, horder⟩ := parseOperands_operandText hwritable
  rw [← htable] at hparse horder
  obtain ⟨hrequest, -⟩ := translateOperands_of_parseOperands hparse horder (.refl _)
  rw [translateLine_of_spelling b (tokenize_sourceLine i), hrequest (fitPorts_sval _ _ _ _),
    ofInt_sval, ofInt_sval, ofInt_sval, Instr.of_mnemonic_operands]

/-! ### Output text and bytes -/

/-- A binary text read as a number, bit by bit. -/
def binaryValue (t : Text) : Nat := t.foldl (fun n c => 2 * n + if c = '1' then 1 else 0) 0

/-- The first `k` characters of a word's text write its upper `k` bits. -/
theorem binaryValue_upperBits (w : Word) {k : Nat} (h : k ≤ 32) :
    binaryValue ((List.range k).map (fun j => if w.getLsbD (31 - j) then '1' else '0')) =
      w.toNat / 2 ^ (32 - k) := by
  induction k with
  | zero => exact (Nat.div_eq_of_lt w.isLt).symm
  | succ k ih =>
    have hbit : (if (if w.getLsbD (31 - k) then '1' else '0') = '1' then 1 else 0) =
        w.toNat / 2 ^ (31 - k) % 2 := by
      rw [BitVec.getLsbD, Nat.testBit_eq_decide_div_mod_eq]
      obtain hzero | hone := Nat.mod_two_eq_zero_or_one (w.toNat / 2 ^ (31 - k))
      · simp [hzero]
      · simp [hone]
    have hupper : w.toNat / 2 ^ (32 - k) = w.toNat / 2 ^ (31 - k) / 2 := by
      rw [Nat.div_div_eq_div_mul, ← Nat.pow_succ]
      congr 2
      omega
    have hpow : 32 - (k + 1) = 31 - k := by omega
    have ih' := ih (by omega)
    rw [binaryValue] at ih' ⊢
    rw [List.range_succ, List.map_append, List.foldl_append, ih', List.map_singleton,
      List.foldl_cons, List.foldl_nil, hbit, hupper, hpow]
    omega

/-- Settles O58: the text is cut off the word bit by bit, upper bits first. -/
theorem outputLineIsTheWordInBinary : Obligations.OutputLineIsTheWordInBinary := by
  refine ⟨fun w => ⟨?_, ?_, ?_⟩, fun s t => ?_⟩
  · rw [bitsText, List.length_map, List.length_range]
  · intro c hc
    obtain ⟨j, -, rfl⟩ := List.mem_map.mp hc
    cases w.getLsbD (31 - j)
    · exact .inl rfl
    · exact .inr rfl
  · exact (binaryValue_upperBits w le_rfl).trans (Nat.div_one _)
  · simp [HostState.outputText]

/-- Settles O60. -/
theorem wordBytesHoldTheWord : Obligations.WordBytesHoldTheWord := by
  intro w
  refine ⟨rfl, ?_⟩
  have hlt := w.isLt
  simp only [wordBytes, List.foldl_cons, List.foldl_nil, BitVec.extractLsb'_toNat,
    Nat.shiftRight_eq_div_pow]
  omega

end Sys2Proof.Machine
end
